-- ==== Sys2Proof/Word.lean ====
section
/-!
DEFINITION. The word types of the engine: every register and every command word is 32 bits wide
(`00_scope.md` R6, REG_W), memory is byte-addressed (`20_memory.md` R60), and the datapaths work on
32-, 64- and 128-bit values (`10_state.md` R40).
-/

namespace Sys2Proof

/-- A byte of memory or one image sample (R60, R61). -/
abbrev Byte := BitVec 8

/-- A register, a command word, or the data of a register access (R21, R90). -/
abbrev Word := BitVec 32

/-- A working value of the 64-bit datapath (R40). -/
abbrev DWord := BitVec 64

/-- A vector of the 128-bit datapath: 16 byte lanes, 8 lanes of 16 bits (R190). -/
abbrev Vec := BitVec 128

end Sys2Proof
end

