-- ==== Sys2Proof/Syntax.lean ====
section
/-!
DEFINITION. The syntax of the machine: the variants, the registers, the two formats in which the host
addresses the engine (`30_encoding.md` R90), and `Instr`, one constructor per mnemonic of
`spec/opcode_table.json`.
-/

namespace Sys2Proof

/-- The five variants, each a datapath of its own (`00_scope.md` R2). -/
inductive Variant where
  | scalar | p32 | p32x2 | p64 | v128
  deriving DecidableEq, Repr

/-- The twelve registers of the window, in offset order (`10_state.md` R21). -/
inductive Reg where
  | id | cap | ctrl | cmd | status | src | dst | width | height | dstLen | progress | faultAddr
  deriving DecidableEq, Repr

/-- What reaches the engine's decoder (R90). `mmio` is a host access to the register window: its KEY,
which is DIR·2^12 + OFF (R92) with OFF formed from the host's address by `busRequest` (R91), its size in bytes, and the data of a write (a read carries none, and
its `data` is ignored). `cmd` is a command word as the host's notation `hse.cmd` writes it (R99). -/
inductive Request where
  | mmio (key : BitVec 13) (size : Nat) (data : Word)
  | cmd (word : Word)
  deriving DecidableEq, Repr

/-- A command word, decoded (R94, R95, R97). -/
inductive Command where
  | nop
  | start (v : Variant)
  | clear
  | illegal (word : Word)
  deriving DecidableEq, Repr

/-- The instructions: the register reads and writes of R92, the refused access of R137, and the
command words of R96 and R97. -/
inductive Instr where
  | rdId | rdCap | rdCtrl | rdCmd | rdStatus | rdSrc | rdDst | rdWidth | rdHeight | rdDstLen
  | rdProgress | rdFaultAddr
  /-- A read of a register number that names no register (R23). -/
  | rdNone (reg : BitVec 10)
  | wrId (data : Word)
  | wrCap (data : Word)
  | wrCtrl (data : Word)
  | wrCmd (data : Word)
  | wrStatus (data : Word)
  | wrSrc (data : Word)
  | wrDst (data : Word)
  | wrWidth (data : Word)
  | wrHeight (data : Word)
  | wrDstLen (data : Word)
  | wrProgress (data : Word)
  | wrFaultAddr (data : Word)
  /-- A write to a register number that names no register (R23). -/
  | wrNone (reg : BitVec 10) (data : Word)
  /-- An access with OFF[1:0] ≠ 00, or of a size other than 4 bytes (R137). -/
  | mmioMisaligned (isWrite : Bool) (off : BitVec 12) (size : Nat)
  | nop
  | startScalar | startP32 | startP32x2 | startP64 | startV128
  | clear
  /-- Every command word that is none of the seven legal ones (R97). -/
  | cmdIllegal (word : Word)
  deriving DecidableEq, Repr

end Sys2Proof
end

