-- ==== Sys2Proof/WellFormed.lean ====
section
/-!
DEFINITION. Which terms of `Instr` stand for an encoding (`30_encoding.md` R91, R92, R96, R97).
-/

namespace Sys2Proof

/-- The seven legal command words (R96). -/
def legalWords : List Word :=
  [0x00000000#32, 0x00000001#32, 0x00000011#32, 0x00000021#32, 0x00000031#32, 0x00000041#32,
   0x00000002#32]

/-- REG 12 to 1023 name no register (R91). -/
def unusedReg (reg : BitVec 10) : Bool := decide (12 ≤ reg.toNat)

/-- OFF[1:0] ≠ 00 or SIZE ≠ 4 (R91, R137). -/
def refusedAccess (off : BitVec 12) (size : Nat) : Bool :=
  off.extractLsb' 0 2 != 0#2 || size != 4

/-- A term that some request decodes to: a "none" access names no register, a refused access breaks
R91, an illegal command is none of the seven words. Every other constructor is well formed with any
operand. -/
def Instr.wf : Instr → Bool
  | .rdNone reg => unusedReg reg
  | .wrNone reg _ => unusedReg reg
  | .mmioMisaligned _ off size => refusedAccess off size
  | .cmdIllegal w => !legalWords.contains w
  | .rdId | .rdCap | .rdCtrl | .rdCmd | .rdStatus | .rdSrc | .rdDst | .rdWidth | .rdHeight
  | .rdDstLen | .rdProgress | .rdFaultAddr => true
  | .wrId _ | .wrCap _ | .wrCtrl _ | .wrCmd _ | .wrStatus _ | .wrSrc _ | .wrDst _ | .wrWidth _
  | .wrHeight _ | .wrDstLen _ | .wrProgress _ | .wrFaultAddr _ => true
  | .nop | .startScalar | .startP32 | .startP32x2 | .startP64 | .startV128 | .clear => true

end Sys2Proof
end

