-- ==== Sys2Proof/Decode.lean ====
section
/-!
DEFINITION. The decoder of the two formats (`30_encoding.md` R90 to R97), the encoder written from the
same tables, and the host's view of a table word. Both decode tables are total (R92, R97: "every
(REG, DIR) has exactly one rule", every other word is illegal), so the decoder rejects no request: what
the spec refuses decodes to the instruction that names the refusal, `mmioMisaligned` or `cmdIllegal`.
A host access to the window reaches the decoder through `busRequest`, which forms OFF from its address.
-/

namespace Sys2Proof

/-! ### From a host address to the request (R91) -/

/-- KEY = DIR·2^12 + OFF (R92). -/
def mmioKey (isWrite : Bool) (off : BitVec 12) : BitVec 13 := BitVec.ofBool isWrite ++ off

/-- OFF of a host access: bits [11:0] of (address − ENGINE_BASE) (R91). -/
def windowOffset (engineBase : Nat) (addr : BitVec 32) : BitVec 12 :=
  (addr - BitVec.ofNat 32 engineBase).extractLsb' 0 12

/-- The request that a host access to the register window presents to the port: OFF from its address;
DIR, SIZE and DATA as the access has them (R90, R91). -/
def busRequest (engineBase : Nat) (isWrite : Bool) (addr : BitVec 32) (size : Nat) (data : Word) :
    Request :=
  .mmio (mmioKey isWrite (windowOffset engineBase addr)) size data

/-- The four bytes of a word, the one in bits [7:0] first. -/
def wordBytes (w : Word) : List Byte :=
  [w.extractLsb' 0 8, w.extractLsb' 8 8, w.extractLsb' 16 8, w.extractLsb' 24 8]

/-- DATA of a host store's bytes in address order, the first in bits [7:0]. DESIGN CHOICE, safe (entry
3). Bytes past the fourth have no place in it; the port refuses such a store (R137). -/
def bytesWord : List Byte → Word
  | [] => 0#32
  | b :: bs => bytesWord bs <<< 8 ||| b.setWidth 32

/-! ### Decoding -/

/-- OFF, bits [11:0] of KEY (R91, R92). -/
def keyOffset (key : BitVec 13) : BitVec 12 := key.extractLsb' 0 12

/-- DIR, bit 12 of KEY: 1 is a write (R92). -/
def keyIsWrite (key : BitVec 13) : Bool := key.getLsbD 12

/-- REG, OFF[11:2] (R91). -/
def offsetReg (off : BitVec 12) : BitVec 10 := off.extractLsb' 2 10

/-- The rows of R92 with DIR = R. -/
def decodeRead (reg : BitVec 10) : Instr :=
  match reg.toNat with
  | 0 => .rdId
  | 1 => .rdCap
  | 2 => .rdCtrl
  | 3 => .rdCmd
  | 4 => .rdStatus
  | 5 => .rdSrc
  | 6 => .rdDst
  | 7 => .rdWidth
  | 8 => .rdHeight
  | 9 => .rdDstLen
  | 10 => .rdProgress
  | 11 => .rdFaultAddr
  | _ => .rdNone reg

/-- The rows of R92 with DIR = W. -/
def decodeWrite (reg : BitVec 10) (data : Word) : Instr :=
  match reg.toNat with
  | 0 => .wrId data
  | 1 => .wrCap data
  | 2 => .wrCtrl data
  | 3 => .wrCmd data
  | 4 => .wrStatus data
  | 5 => .wrSrc data
  | 6 => .wrDst data
  | 7 => .wrWidth data
  | 8 => .wrHeight data
  | 9 => .wrDstLen data
  | 10 => .wrProgress data
  | 11 => .wrFaultAddr data
  | _ => .wrNone reg data

/-- The MMIO format (R91, R92): a misaligned or wrongly sized access matches no row (R137). -/
def decodeMmio (key : BitVec 13) (size : Nat) (data : Word) : Instr :=
  if refusedAccess (keyOffset key) size then
    .mmioMisaligned (keyIsWrite key) (keyOffset key) size
  else if keyIsWrite key then decodeWrite (offsetReg (keyOffset key)) data
  else decodeRead (offsetReg (keyOffset key))

/-- VAR, the variant identifiers (R2, R95); 5 to 15 are reserved. -/
def decodeVariant (var : BitVec 4) : Option Variant :=
  match var.toNat with
  | 0 => some .scalar
  | 1 => some .p32
  | 2 => some .p32x2
  | 3 => some .p64
  | 4 => some .v128
  | _ => none

/-- The CMD format: OPC [3:0], VAR [7:4], RSVD [31:8] (R93 to R97). -/
def decodeCommand (w : Word) : Command :=
  let opc := w.extractLsb' 0 4
  let var := w.extractLsb' 4 4
  let rsvd := w.extractLsb' 8 24
  if rsvd ≠ 0#24 then .illegal w
  else match opc.toNat with
    | 0 => if var = 0#4 then .nop else .illegal w
    | 1 => match decodeVariant var with
      | some v => .start v
      | none => .illegal w
    | 2 => if var = 0#4 then .clear else .illegal w
    | _ => .illegal w

/-- The instruction that a decoded command word is (R96, R97). -/
def Command.toInstr : Command → Instr
  | .nop => .nop
  | .start .scalar => .startScalar
  | .start .p32 => .startP32
  | .start .p32x2 => .startP32x2
  | .start .p64 => .startP64
  | .start .v128 => .startV128
  | .clear => .clear
  | .illegal w => .cmdIllegal w

/-- The decoder of the engine: one format a request (R90). -/
def decode : Request → Instr
  | .mmio key size data => decodeMmio key size data
  | .cmd w => (decodeCommand w).toInstr

/-! ### Encoding -/

/-- A register number's byte offset, with OFF[1:0] = 00 (R91). -/
def regOffset (reg : BitVec 10) : BitVec 12 := reg ++ 0#2

/-- A 32-bit read of register number `reg` (R91). -/
def encodeRead (reg : BitVec 10) : Request := .mmio (mmioKey false (regOffset reg)) 4 0#32

/-- A 32-bit write of `data` to register number `reg` (R91). -/
def encodeWrite (reg : BitVec 10) (data : Word) : Request :=
  .mmio (mmioKey true (regOffset reg)) 4 data

/-- The request of an instruction, from the tables of R92 and R96. -/
def encode : Instr → Request
  | .rdId => encodeRead 0
  | .rdCap => encodeRead 1
  | .rdCtrl => encodeRead 2
  | .rdCmd => encodeRead 3
  | .rdStatus => encodeRead 4
  | .rdSrc => encodeRead 5
  | .rdDst => encodeRead 6
  | .rdWidth => encodeRead 7
  | .rdHeight => encodeRead 8
  | .rdDstLen => encodeRead 9
  | .rdProgress => encodeRead 10
  | .rdFaultAddr => encodeRead 11
  | .rdNone reg => encodeRead reg
  | .wrId data => encodeWrite 0 data
  | .wrCap data => encodeWrite 1 data
  | .wrCtrl data => encodeWrite 2 data
  | .wrCmd data => encodeWrite 3 data
  | .wrStatus data => encodeWrite 4 data
  | .wrSrc data => encodeWrite 5 data
  | .wrDst data => encodeWrite 6 data
  | .wrWidth data => encodeWrite 7 data
  | .wrHeight data => encodeWrite 8 data
  | .wrDstLen data => encodeWrite 9 data
  | .wrProgress data => encodeWrite 10 data
  | .wrFaultAddr data => encodeWrite 11 data
  | .wrNone reg data => encodeWrite reg data
  | .mmioMisaligned isWrite off size => .mmio (mmioKey isWrite off) size 0#32
  | .nop => .cmd 0x00000000#32
  | .startScalar => .cmd 0x00000001#32
  | .startP32 => .cmd 0x00000011#32
  | .startP32x2 => .cmd 0x00000021#32
  | .startP64 => .cmd 0x00000031#32
  | .startV128 => .cmd 0x00000041#32
  | .clear => .cmd 0x00000002#32
  | .cmdIllegal w => .cmd w

/-! ### The host's table words -/

/-- Whether the low 13 bits of a 32-bit table word are the KEY of one of the two "none" rows
(match 0x0040 and 0x1040, mask 0x1FC3) to which the reader's list gives 32 bits (entry 15). -/
def wideNoneRow (w : Nat) : Bool :=
  let key := BitVec.ofNat 13 w
  key &&& 0x1FC3#13 == 0x0040#13 || key &&& 0x1FC3#13 == 0x1040#13

/-- The request that a word of `spec/opcode_table.json` stands for. A row of at most 16 bits is a KEY
(R92), a 4-byte access with data 0; a row of 32 bits is a command word (R93), but for the two rows of
`wideNoneRow`. DESIGN CHOICE (entry 15): the table has one word for both formats and only its length
tells them apart. -/
def tableRequest (nbits w : Nat) : Option Request :=
  if nbits ≤ 16 then
    if w < 2 ^ 13 then some (.mmio (BitVec.ofNat 13 w) 4 0#32) else none
  else if nbits = 32 ∧ w < 2 ^ 32 then
    if wideNoneRow w then some (.mmio (BitVec.ofNat 13 w) 4 0#32) else some (.cmd (BitVec.ofNat 32 w))
  else none

/-- The instruction that the decoder reads from a table word (the host's question). -/
def decodeTableWord (nbits w : Nat) : Option Instr := (tableRequest nbits w).map decode

end Sys2Proof
end

