-- ==== Sys2Proof/Config.lean ====
section
/-!
DEFINITION. What an implementation or a platform fixes (`00_scope.md` R6): the constants of the
engine, the platform's parameters as plain data, and the one free value of the model.
-/

namespace Sys2Proof.Config

/-- The size of the one address space, 2^ADDR_W with ADDR_W = 32 (R6, R60). -/
def addrSpace : Nat := 2 ^ 32

/-- The size in bytes of the engine's register window (R21). -/
def windowSize : Nat := 0x1000

/-- The value of the ID register, ENGINE_ID (R6, R25). -/
def engineId : Word := 0x48530007#32

/-- A region of memory that the platform's memory port refuses: an access of `n` bytes that touches
`[base, base + size)` is not admitted, for every `n`, or for `n = w` only where `width` is `some w`.
The engine's accesses are naturally aligned (R66), so a list of these can express every predicate
`MemOk(addr, n)` on them (entry 5). -/
structure Region where
  base  : Nat
  size  : Nat
  width : Option Nat
  deriving DecidableEq, Repr

/-- The platform's parameters (R6). No step and no reset changes them. -/
structure Platform where
  /-- HAS_V128: whether variant 4 is implemented (R6, R26). -/
  hasV128    : Bool
  /-- ENGINE_BASE: the address of the register window (R6, R21). -/
  engineBase : Nat
  /-- IRQ_LINE: the host interrupt input that the engine's output drives (R6, R227). -/
  irqLine    : Nat
  /-- What the memory port does not admit: `MemOk` as plain data (R6, R134; entry 5). -/
  refused    : List Region
  deriving DecidableEq, Repr

/-- ENGINE_BASE is 4 KiB aligned (`93_implementation_defined.md` I9). -/
def Platform.wf (p : Platform) : Bool := p.engineBase % windowSize == 0

/-- The platform of `State.reset`. `hasV128` is the spec's default (R6); the other values are OPEN in
the spec. DESIGN CHOICE, unsafe: a claim that rests on these values holds of this platform only
(entry 4). -/
def initialPlatform : Platform where
  hasV128    := true
  engineBase := 0x40000000
  irqLine    := 0
  refused    := []

/-- The free value of R259: whether the `n`-th byte that a host loads, an output byte while BUSY, reads
as its final value rather than its value from before START. The spec leaves it open, so it has no body
(entry 10). -/
opaque busyReadSeesFinal : Nat → Bool

end Sys2Proof.Config
end

