-- ==== Sys2Proof/Machine/State.lean ====
section
/-!
DEFINITION. The machine's state as plain data (`10_state.md`), the reasons a step can stop, and the
state right after reset (`70_reset_and_hazards.md` R250).
-/

namespace Sys2Proof.Machine

open Sys2Proof

/-- The errors of `60_exceptions.md` R221. -/
inductive EngineError where
  | invalidDimensions | bufferTooSmall | misalignedBuffer | addressOverflow | bufferOverlap
  | busError | illegalCommand | unsupportedVariant
  deriving DecidableEq, Repr

/-- The phase (R37) with the cursor, which has a meaning in RUN only (R38): `run y k` is RUN at output
row `y` and block group `k`. STATUS.BUSY shows the phase exactly, so it is not held beside it. -/
inductive Phase where
  | idle
  | run (y k : Nat)
  deriving DecidableEq, Repr

/-- What the outside world does next. Plain data: the order of these events is the interleaving that
R120 and R267 leave open (entry 2). -/
inductive Event where
  /-- A register access as R99 encodes it, by register and not by address (R90, R120). -/
  | access (r : Request)
  /-- The engine's turn: the schedule places an engine step here (R120). -/
  | engine
  /-- The reset input is asserted (R250). -/
  | reset
  /-- The host reads `size` bytes from `addr`: a register access where it touches the register window
  (R90, R91), else a load from memory (R74, R259). -/
  | load (addr : BitVec 32) (size : Nat)
  /-- The host writes `bytes` from `addr` up: a register access where it touches the register window
  (R90, R91), else a store to memory (R73, R74). -/
  | store (addr : BitVec 32) (bytes : List Byte)
  /-- The pseudo-instruction `hse.wait`: poll STATUS until BUSY reads 0 (R100; entry 13). -/
  | wait
  deriving DecidableEq, Repr

/-- Memory as cells at strictly rising addresses, none of which holds the value an unlisted address
reads as (`Memory.wf` in `Machine/Ops.lean`). -/
abbrev Memory := List Host.Cell

/-- The reasons a step faults. -/
inductive Fault where
  /-- Raised by MMIO.MISALIGNED: the port answers with a bus error response and the host step faults
  (R137, I12, I13). Safe: what the host does with the response is its platform's, and the model says
  nothing after it. -/
  | mmioBusError (isWrite : Bool) (off : BitVec 12) (size : Nat)
  /-- Raised by a host load or store that reaches past the address space of 2^32 bytes (R60; entry 22).
  Safe: no such byte exists, and the model says nothing after it. -/
  | noSuchAddress (addr : BitVec 32) (size : Nat)
  deriving DecidableEq, Repr

/-- The reasons a step has no meaning. -/
inductive Refusal where
  /-- An arm of `exec` that has no meaning yet; no arm of this model answers it. Safe. -/
  | notModelled (mnemonic : String)
  /-- Raised by a host store that touches the input or output range while BUSY = 1: "the host has no
  such move" (R74, R258, I3). Safe: no claim covers such a run. -/
  | hostStoreToBuffer (addr : BitVec 32)
  deriving DecidableEq, Repr

/-- The state of the engine, of the memory it shares with the host, and of the events to come. -/
structure State where
  /-- The platform's parameters (R6); no step changes them. -/
  platform   : Config.Platform
  /-- CTRL.IE (R27). -/
  ctrlIE     : Bool
  /-- The phase and, in RUN, the cursor (R37, R38); STATUS.BUSY is `State.busy`. -/
  phase      : Phase
  /-- STATUS.DONE (R29). -/
  done       : Bool
  /-- STATUS.ERR (R29). -/
  err        : Bool
  /-- STATUS.IGNW (R29). -/
  ignw       : Bool
  /-- STATUS.ERRCODE (R29, R221): `none` is code 0, "no error". -/
  errcode    : Option EngineError
  /-- STATUS.LAST_VAR (R29). -/
  lastVar    : Variant
  /-- SRC (R30). -/
  src        : Word
  /-- DST (R31). -/
  dst        : Word
  /-- WIDTH (R32). -/
  width      : Word
  /-- HEIGHT (R33). -/
  height     : Word
  /-- DST_LEN (R34). -/
  dstLen     : Word
  /-- PROGRESS (R35). -/
  progress   : Word
  /-- FAULT_ADDR (R36). -/
  faultAddr  : Word
  /-- Memory, shared with the host (R42, R60). -/
  mem        : Memory
  /-- The model's own: memory as it stood when the running operation was accepted, which R259 needs
  for a byte's value from before START (entry 10). -/
  memAtStart : Memory
  /-- The model's own: the events to come, oldest first (entry 2). -/
  pending    : List Event
  /-- The model's own: the data the port returned for the last MMIO read (R121; entry 7). -/
  readData   : Word
  /-- The model's own: the bytes the last host load of memory returned, in address order (entry 10). -/
  loadData   : List Byte
  /-- The model's own: how many bytes host loads have read, which numbers the draws from
  `Config.busyReadSeesFinal` (entry 10). -/
  draws      : Nat
  deriving DecidableEq, Repr

/-- The machine right after reset (R21, R250): every register 0 (ID and CAP are constants), the phase
IDLE, memory with nothing listed, and no event pending. The platform's OPEN parameters and the model's
own fields have the values of entries 2, 4, 7 and 10 (DESIGN CHOICE). -/
def State.reset : State where
  platform   := Config.initialPlatform
  ctrlIE     := false
  phase      := .idle
  done       := false
  err        := false
  ignw       := false
  errcode    := none
  lastVar    := .scalar
  src        := 0#32
  dst        := 0#32
  width      := 0#32
  height     := 0#32
  dstLen     := 0#32
  progress   := 0#32
  faultAddr  := 0#32
  mem        := []
  memAtStart := []
  pending    := []
  readData   := 0#32
  loadData   := []
  draws      := 0

/-- What a step or an instruction answers. -/
abbrev Result := Host.Outcome State Fault Refusal

end Sys2Proof.Machine
end

