-- ==== Sys2Proof/Machine/Flags.lean ====
section
/-!
DEFINITION. The STATUS register and what is computed from it (`10_state.md` R29, R37, R41). No datapath
operation sets a flag (R22): the fields of STATUS are the only status bits of the machine.
-/

namespace Sys2Proof.Machine

open Sys2Proof

/-- STATUS.BUSY: 1 exactly in RUN (R37). -/
def State.busy (s : State) : Bool :=
  match s.phase with
  | .idle => false
  | .run _ _ => true

/-- The variant identifier VAR, 0 to 4 (R2, R95), as the LAST_VAR field holds it (R29). -/
def variantCode : Variant → BitVec 3
  | .scalar => 0
  | .p32 => 1
  | .p32x2 => 2
  | .p64 => 3
  | .v128 => 4

/-- The error codes of `60_exceptions.md` R221. -/
def errorCode : EngineError → BitVec 4
  | .invalidDimensions => 1
  | .bufferTooSmall => 2
  | .misalignedBuffer => 3
  | .addressOverflow => 4
  | .bufferOverlap => 5
  | .busError => 6
  | .illegalCommand => 7
  | .unsupportedVariant => 8

/-- The ERRCODE field: 0 where there is no error (R221). -/
def errcodeField : Option EngineError → BitVec 4
  | none => 0
  | some e => errorCode e

/-- The 32 bits of STATUS, with the reserved fields 0 (R29, R121). -/
def State.statusWord (s : State) : Word :=
  (variantCode s.lastVar ++ 0#4 ++ errcodeField s.errcode ++ 0#4 ++ BitVec.ofBool s.ignw
    ++ BitVec.ofBool s.err ++ BitVec.ofBool s.done ++ BitVec.ofBool s.busy).setWidth 32

/-- The IRQ output, a level: CTRL.IE & (STATUS.DONE | STATUS.ERR) (R41, `60_exceptions.md` R227). -/
def State.irq (s : State) : Bool := s.ctrlIE && (s.done || s.err)

/-- The level on the host interrupt input `line`, of which the engine drives IRQ_LINE only (R227). -/
def State.irqOn (s : State) (line : Nat) : Bool := line == s.platform.irqLine && s.irq

end Sys2Proof.Machine
end

