-- ==== Sys2Proof/Machine/Ops.lean ====
section
/-!
DEFINITION. The named operations over memory and registers (`00_scope.md` R9, `20_memory.md`,
`40_control.md` R121 to R134), and the entry to and the return from an error
(`60_exceptions.md` R224, R225).
-/

namespace Sys2Proof.Machine

open Sys2Proof

/-! ### Memory -/

/-- What an address that memory does not list reads as. DESIGN CHOICE, unsafe (entry 1): the spec gives
memory no reset contents (R252); its vectors take 0 for every byte not listed (`95_test_vectors.md`). -/
def unlistedByte : Byte := 0#8

/-- The one read of a byte. -/
def Memory.readByte : Memory → Nat → Byte
  | [], _ => unlistedByte
  | (c, x) :: m, a => if a = c then x else Memory.readByte m a

/-- The one write of a byte; it keeps the canonical form `Memory.wf`. -/
def Memory.writeByte : Memory → Nat → Byte → Memory
  | [], a, b => if b = unlistedByte then [] else [(a, b)]
  | (c, x) :: m, a, b =>
    if a < c then (if b = unlistedByte then (c, x) :: m else (a, b) :: (c, x) :: m)
    else if a = c then (if b = unlistedByte then m else (a, b) :: m)
    else (c, x) :: Memory.writeByte m a b

/-- The cells stand at rising addresses, from `lo` and inside the address space, and none holds the
value of an unlisted byte. -/
def Memory.wfFrom (lo : Nat) : Memory → Bool
  | [] => true
  | (a, b) :: m =>
    decide (lo ≤ a) && decide (a < Config.addrSpace) && b != unlistedByte && Memory.wfFrom (a + 1) m

/-- The canonical form of memory: equal contents are equal data. -/
def Memory.wf (m : Memory) : Bool := Memory.wfFrom 0 m

/-- `n` bytes from `a`, little-endian: the byte at `a + i` in bits [8i+7:8i] (R9, R63). -/
def Memory.readLE (m : Memory) (a : Nat) : (n : Nat) → BitVec (8 * n)
  | 0 => 0#0
  | n + 1 => (Memory.readLE m (a + 1) n ++ m.readByte a : BitVec (8 * n + 8))

/-- The low `n` bytes of `v` to `a`, little-endian: bits [8i+7:8i] to `a + i` (R9, R63). -/
def Memory.writeLE {w : Nat} (m : Memory) (a : Nat) : (n : Nat) → BitVec w → Memory
  | 0, _ => m
  | n + 1, v => Memory.writeLE (m.writeByte a (v.setWidth 8)) (a + 1) n (v >>> 8)

/-- The bytes of a host store, at rising addresses from `a`. -/
def Memory.writeBytes (m : Memory) (a : Nat) : List Byte → Memory
  | [] => m
  | b :: bs => Memory.writeBytes (m.writeByte a b) (a + 1) bs

/-! ### The memory port -/

/-- The `n` bytes from `a` and the `size` bytes from `base` have a byte in common. -/
def rangesMeet (a n base size : Nat) : Bool := decide (max a base < min (a + n) (base + size))

/-- A region refuses an access that touches it, of every width or of its one width (entry 5). -/
def regionRefuses (r : Config.Region) (a n : Nat) : Bool :=
  rangesMeet a n r.base r.size && (match r.width with
    | none => true
    | some w => w == n)

/-- `MemOk(addr, n)` (R6): the access lies in the address space (R60), touches no byte of the register
window (R60, D41), and no region of the platform refuses it (entry 5). -/
def memOk (p : Config.Platform) (a n : Nat) : Bool :=
  decide (a + n ≤ Config.addrSpace) && !rangesMeet a n p.engineBase Config.windowSize
    && p.refused.all (fun r => !regionRefuses r a n)

/-- `MemRead(addr, n)` (R9), which first asks `MemOk` (R134): the value, or the address that raised
BusError. -/
def State.memRead (s : State) (a n : Nat) : Except Nat (BitVec (8 * n)) :=
  if memOk s.platform a n then .ok (s.mem.readLE a n) else .error a

/-- `MemWrite(addr, n, v)` (R9), which first asks `MemOk` (R134): all `n` bytes, or none of them and
the address that raised BusError (R67). -/
def State.memWrite {w : Nat} (s : State) (a n : Nat) (v : BitVec w) : Except Nat State :=
  if memOk s.platform a n then .ok { s with mem := s.mem.writeLE a n v } else .error a

/-! ### Registers -/

/-- The value a read of a register returns (R121). -/
def State.readReg (s : State) : Reg → Word
  | .id => Config.engineId
  | .cap => (BitVec.ofBool s.platform.hasV128 ++ 0b1111#4).setWidth 32
  | .ctrl => (BitVec.ofBool s.ctrlIE).setWidth 32
  | .cmd => 0#32
  | .status => s.statusWord
  | .src => s.src
  | .dst => s.dst
  | .width => s.width
  | .height => s.height
  | .dstLen => s.dstLen
  | .progress => s.progress
  | .faultAddr => s.faultAddr

/-- The port returns `w` for a read; nothing else changes (R121; entry 7). -/
def State.respond (s : State) (w : Word) : State := { s with readData := w }

/-- A write or a command that is ignored because BUSY = 1 sets the sticky IGNW (R123, R135). -/
def State.ignoreWrite (s : State) : State := { s with ignw := true }

/-- The busy-lock of R123: while BUSY = 1 a configuration write is ignored and sets IGNW, else it
takes effect. -/
def State.unlessBusy (s : State) (effect : State) : State :=
  if s.busy then s.ignoreWrite else effect

/-! ### Error entry and return -/

/-- Error entry, the one way an error is taken (`60_exceptions.md` R224): ERR, the code, DONE and BUSY
in one step; nothing is saved and control goes nowhere. The values R221 records beside the code are
written by the command or the step that raises. -/
def State.raiseError (s : State) (e : EngineError) : State :=
  { s with err := true, errcode := some e, done := false, phase := .idle }

/-- BusError (R134): FAULT_ADDR is the address of the access that was not admitted; PROGRESS keeps the
bytes of the completed steps. -/
def State.busError (s : State) (addr : Nat) : State :=
  { s with faultAddr := BitVec.ofNat 32 addr }.raiseError .busError

/-- CLEAR's effect, the return from an error (R129, R225): the completion and error status and IGNW
become 0; LAST_VAR, PROGRESS and FAULT_ADDR are kept. -/
def State.clearStatus (s : State) : State :=
  { s with done := false, err := false, errcode := none, ignw := false }

/-- The reset input (`70_reset_and_hazards.md` R250 to R252): every register and the phase take their
reset values; memory, the platform and the host's side are not the engine's and stay (entry 18). -/
def State.resetEngine (s : State) : State :=
  { State.reset with
    platform := s.platform, mem := s.mem, memAtStart := s.memAtStart, pending := s.pending,
    readData := s.readData, loadData := s.loadData, draws := s.draws }

end Sys2Proof.Machine
end

