-- ==== Sys2Proof/Machine/Operands.lean ====
section
/-!
DEFINITION. The operands of an operation: the variant constants (`00_scope.md` R2), the registers as
naturals, the ranges of the buffers (`20_memory.md` R61, R62), the addresses and the cursor of a step
(`40_control.md` R132), and the validation of a START (R126).
-/

namespace Sys2Proof.Machine

open Sys2Proof

/-! ### Variant constants (R2) -/

/-- G: the width granularity in bytes. -/
def granularity : Variant → Nat
  | .scalar => 2
  | .p32 => 4
  | .p32x2 => 8
  | .p64 => 8
  | .v128 => 32

/-- A: the alignment in bytes of SRC and DST. -/
def alignment : Variant → Nat
  | .scalar => 1
  | .p32 => 4
  | .p32x2 => 4
  | .p64 => 8
  | .v128 => 16

/-- C: the input columns of one step. -/
def columns : Variant → Nat
  | .scalar => 2
  | .p32 => 4
  | .p32x2 => 8
  | .p64 => 8
  | .v128 => 32

/-- O: the output bytes of one step. -/
def outBytes : Variant → Nat
  | .scalar => 1
  | .p32 => 2
  | .p32x2 => 4
  | .p64 => 4
  | .v128 => 16

/-! ### The parameters of the operation, zero-extended to ℕ (R93, R126) -/

/-- W, the image width, which is the row stride (R32). -/
def State.opW (s : State) : Nat := s.width.toNat

/-- H, the image height (R33). -/
def State.opH (s : State) : Nat := s.height.toNat

/-- S, the input base address (R30). -/
def State.opS (s : State) : Nat := s.src.toNat

/-- D, the output base address (R31). -/
def State.opD (s : State) : Nat := s.dst.toNat

/-- L, the length of the output buffer (R34). -/
def State.opL (s : State) : Nat := s.dstLen.toNat

/-- N = (W div 2)·(H div 2), the output size in bytes (R11, R126). -/
def State.opN (s : State) : Nat := (s.opW / 2) * (s.opH / 2)

/-- The address is in the input range [SRC, SRC + W·H) (R61). -/
def State.inInput (s : State) (a : Nat) : Bool :=
  decide (s.opS ≤ a) && decide (a < s.opS + s.opW * s.opH)

/-- The address is in the output range [DST, DST + N) (R62). -/
def State.inOutput (s : State) (a : Nat) : Bool :=
  decide (s.opD ≤ a) && decide (a < s.opD + s.opN)

/-! ### START validation (R126) -/

/-- The first check of R126 that fails for variant `v`, in its order; `none` where all pass. -/
def startCheck (v : Variant) (s : State) : Option EngineError :=
  if v = .v128 ∧ s.platform.hasV128 = false then some .unsupportedVariant
  else if s.opW % 2 ≠ 0 ∨ s.opH % 2 ≠ 0 ∨ s.opW % granularity v ≠ 0 then some .invalidDimensions
  else if s.opL < s.opN then some .bufferTooSmall
  else if s.opS % alignment v ≠ 0 ∨ s.opD % alignment v ≠ 0 then some .misalignedBuffer
  else if s.opS + s.opW * s.opH > Config.addrSpace ∨ s.opD + s.opN > Config.addrSpace then
    some .addressOverflow
  else if 0 < s.opN ∧ s.opS < s.opD + s.opN ∧ s.opD < s.opS + s.opW * s.opH then
    some .bufferOverlap
  else none

/-! ### Addressing and cursor order (R132) -/

/-- `top`: the first byte of block group `k` in input row 2y. -/
def State.topAddr (s : State) (v : Variant) (y k : Nat) : Nat :=
  s.opS + (2 * y) * s.opW + k * columns v

/-- `bot`: the same columns one row below. -/
def State.botAddr (s : State) (v : Variant) (y k : Nat) : Nat := s.topAddr v y k + s.opW

/-- `dst`: the first output byte of the group. -/
def State.dstAddr (s : State) (v : Variant) (y k : Nat) : Nat :=
  s.opD + y * (s.opW / 2) + k * outBytes v

/-- The row of `Next(v, y, k)`. -/
def State.nextRow (s : State) (v : Variant) (y k : Nat) : Nat :=
  if k + 1 < s.opW / columns v then y else y + 1

/-- The block group of `Next(v, y, k)`. -/
def State.nextGroup (s : State) (v : Variant) (k : Nat) : Nat :=
  if k + 1 < s.opW / columns v then k + 1 else 0

end Sys2Proof.Machine
end

