-- ==== Sys2Proof/Machine/Commands.lean ====
section
/-!
DEFINITION. The meanings of the command words and of WR.CMD (`40_control.md` R124 to R129, R135). While
BUSY = 1 every word but NOP's is ignored and sets IGNW (R125, R135); each meaning says so itself.
-/

namespace Sys2Proof.Machine

open Sys2Proof

/-! ### START (R126, R127) -/

/-- What R126 writes before it checks: LAST_VAR, PROGRESS and FAULT_ADDR. -/
def State.beginStart (s : State) (v : Variant) : State :=
  { s with lastVar := v, progress := 0#32, faultAddr := 0#32 }

/-- START acceptance (R127): an empty operation is done at once; any other enters RUN with the cursor at
(0, 0). `memAtStart` is the model's own (entry 10). -/
def State.acceptStart (s : State) : State :=
  let t := { s with done := false, err := false, errcode := none }
  if s.opN = 0 then { t with done := true }
  else { t with phase := .run 0 0, memAtStart := s.mem }

/-- START(v) while BUSY = 0: validate, then refuse with the first failing check or accept (R126). -/
def State.startOperation (s : State) (v : Variant) : State :=
  match startCheck v s with
  | some e => (s.beginStart v).raiseError e
  | none => (s.beginStart v).acceptStart

/-! ### The seven legal words and the illegal ones -/

/-- NOP changes nothing, BUSY or not (R128). -/
def execNop (s : State) : Result := .next s

/-- START.SCALAR (R151). -/
def execStartScalar (s : State) : Result := .next (s.unlessBusy (s.startOperation .scalar))
/-- START.P32 (R171). -/
def execStartP32 (s : State) : Result := .next (s.unlessBusy (s.startOperation .p32))
/-- START.P32X2 (R173). -/
def execStartP32x2 (s : State) : Result := .next (s.unlessBusy (s.startOperation .p32x2))
/-- START.P64 (R175). -/
def execStartP64 (s : State) : Result := .next (s.unlessBusy (s.startOperation .p64))
/-- START.V128 (R197). -/
def execStartV128 (s : State) : Result := .next (s.unlessBusy (s.startOperation .v128))

/-- CLEAR (R129). -/
def execClear (s : State) : Result := .next (s.unlessBusy s.clearStatus)

/-- CMD.ILLEGAL: raises IllegalCommand while BUSY = 0; LAST_VAR, PROGRESS and FAULT_ADDR are kept
(R97, R125, R221). -/
def execCmdIllegal (_word : Word) (s : State) : Result :=
  .next (s.unlessBusy (s.raiseError .illegalCommand))

/-! ### WR.CMD (R124, R125) -/

/-- `Decode(w)` of R125: the meaning of the command that the word is. -/
def runCommand (c : Command) (s : State) : Result :=
  match c with
  | .nop => execNop s
  | .start .scalar => execStartScalar s
  | .start .p32 => execStartP32 s
  | .start .p32x2 => execStartP32x2 s
  | .start .p64 => execStartP64 s
  | .start .v128 => execStartV128 s
  | .clear => execClear s
  | .illegal w => execCmdIllegal w s

/-- WR.CMD hands its data to the command decoder and stores nothing (R124, R28). -/
def execWrCmd (data : Word) (s : State) : Result := runCommand (decodeCommand data) s

end Sys2Proof.Machine
end

