-- ==== Sys2Proof/Machine/RegisterAccess.lean ====
section
/-!
DEFINITION. The meanings of the register accesses (`40_control.md` R121 to R123, R130, R137;
`10_state.md` R23).
-/

namespace Sys2Proof.Machine

open Sys2Proof

/-! ### Reads: the register's value is the result, nothing else changes (R121) -/

/-- A 32-bit read of register `r` (R121). -/
def State.readAccess (s : State) (r : Reg) : Result := .next (s.respond (s.readReg r))

/-- RD.ID (R121, R25). -/
def execRdId (s : State) : Result := s.readAccess .id
/-- RD.CAP (R121, R26). -/
def execRdCap (s : State) : Result := s.readAccess .cap
/-- RD.CTRL (R121, R27). -/
def execRdCtrl (s : State) : Result := s.readAccess .ctrl
/-- RD.CMD: returns 0 whatever was last written (R121, R28). -/
def execRdCmd (s : State) : Result := s.readAccess .cmd
/-- RD.STATUS (R121, R29). -/
def execRdStatus (s : State) : Result := s.readAccess .status
/-- RD.SRC (R121, R30). -/
def execRdSrc (s : State) : Result := s.readAccess .src
/-- RD.DST (R121, R31). -/
def execRdDst (s : State) : Result := s.readAccess .dst
/-- RD.WIDTH (R121, R32). -/
def execRdWidth (s : State) : Result := s.readAccess .width
/-- RD.HEIGHT (R121, R33). -/
def execRdHeight (s : State) : Result := s.readAccess .height
/-- RD.DST_LEN (R121, R34). -/
def execRdDstLen (s : State) : Result := s.readAccess .dstLen
/-- RD.PROGRESS (R121, R35). -/
def execRdProgress (s : State) : Result := s.readAccess .progress
/-- RD.FAULT_ADDR (R121, R36). -/
def execRdFaultAddr (s : State) : Result := s.readAccess .faultAddr
/-- RD.NONE: an offset that names no register reads 0 (R23). -/
def execRdNone (_reg : BitVec 10) (s : State) : Result := .next (s.respond 0#32)

/-! ### Writes -/

/-- WR.CTRL: bit 0 to IE, bits [31:1] discarded, BUSY or not (R122, R24). -/
def execWrCtrl (data : Word) (s : State) : Result := .next { s with ctrlIE := data.getLsbD 0 }

/-- WR.SRC (R123). -/
def execWrSrc (data : Word) (s : State) : Result := .next (s.unlessBusy { s with src := data })
/-- WR.DST (R123). -/
def execWrDst (data : Word) (s : State) : Result := .next (s.unlessBusy { s with dst := data })
/-- WR.WIDTH (R123). -/
def execWrWidth (data : Word) (s : State) : Result := .next (s.unlessBusy { s with width := data })
/-- WR.HEIGHT (R123). -/
def execWrHeight (data : Word) (s : State) : Result := .next (s.unlessBusy { s with height := data })
/-- WR.DST_LEN (R123). -/
def execWrDstLen (data : Word) (s : State) : Result := .next (s.unlessBusy { s with dstLen := data })

/-- A write to a read-only register has no effect, and does not set IGNW (R130). -/
def State.readOnlyWrite (s : State) (_data : Word) : Result := .next s

/-- WR.ID (R130). -/
def execWrId (data : Word) (s : State) : Result := s.readOnlyWrite data
/-- WR.CAP (R130). -/
def execWrCap (data : Word) (s : State) : Result := s.readOnlyWrite data
/-- WR.STATUS (R130). -/
def execWrStatus (data : Word) (s : State) : Result := s.readOnlyWrite data
/-- WR.PROGRESS (R130). -/
def execWrProgress (data : Word) (s : State) : Result := s.readOnlyWrite data
/-- WR.FAULT_ADDR (R130). -/
def execWrFaultAddr (data : Word) (s : State) : Result := s.readOnlyWrite data

/-- WR.NONE: a write to an offset that names no register changes no state, not even IGNW (R23). -/
def execWrNone (_reg : BitVec 10) (_data : Word) (s : State) : Result := .next s

/-! ### The refused access -/

/-- MMIO.MISALIGNED: the port answers with a bus error response, no engine state changes, and "a model
treats such an access as a fault of the host step" (R137, I12). -/
def execMmioMisaligned (isWrite : Bool) (off : BitVec 12) (size : Nat) (_s : State) : Result :=
  .fault (.mmioBusError isWrite off size)

end Sys2Proof.Machine
end

