-- ==== Sys2Proof/Machine/Dispatch.lean ====
section
/-!
DEFINITION. The dispatch of an instruction to its meaning: one arm per constructor of `Instr`, each one
direct call.
-/

namespace Sys2Proof.Machine

open Sys2Proof

def exec (i : Instr) (s : State) : Host.Outcome State Fault Refusal :=
  match i with
  | .rdId => Sys2Proof.Machine.execRdId s
  | .rdCap => Sys2Proof.Machine.execRdCap s
  | .rdCtrl => Sys2Proof.Machine.execRdCtrl s
  | .rdCmd => Sys2Proof.Machine.execRdCmd s
  | .rdStatus => Sys2Proof.Machine.execRdStatus s
  | .rdSrc => Sys2Proof.Machine.execRdSrc s
  | .rdDst => Sys2Proof.Machine.execRdDst s
  | .rdWidth => Sys2Proof.Machine.execRdWidth s
  | .rdHeight => Sys2Proof.Machine.execRdHeight s
  | .rdDstLen => Sys2Proof.Machine.execRdDstLen s
  | .rdProgress => Sys2Proof.Machine.execRdProgress s
  | .rdFaultAddr => Sys2Proof.Machine.execRdFaultAddr s
  | .rdNone reg => Sys2Proof.Machine.execRdNone reg s
  | .wrId data => Sys2Proof.Machine.execWrId data s
  | .wrCap data => Sys2Proof.Machine.execWrCap data s
  | .wrCtrl data => Sys2Proof.Machine.execWrCtrl data s
  | .wrCmd data => Sys2Proof.Machine.execWrCmd data s
  | .wrStatus data => Sys2Proof.Machine.execWrStatus data s
  | .wrSrc data => Sys2Proof.Machine.execWrSrc data s
  | .wrDst data => Sys2Proof.Machine.execWrDst data s
  | .wrWidth data => Sys2Proof.Machine.execWrWidth data s
  | .wrHeight data => Sys2Proof.Machine.execWrHeight data s
  | .wrDstLen data => Sys2Proof.Machine.execWrDstLen data s
  | .wrProgress data => Sys2Proof.Machine.execWrProgress data s
  | .wrFaultAddr data => Sys2Proof.Machine.execWrFaultAddr data s
  | .wrNone reg data => Sys2Proof.Machine.execWrNone reg data s
  | .mmioMisaligned isWrite off size => Sys2Proof.Machine.execMmioMisaligned isWrite off size s
  | .nop => Sys2Proof.Machine.execNop s
  | .startScalar => Sys2Proof.Machine.execStartScalar s
  | .startP32 => Sys2Proof.Machine.execStartP32 s
  | .startP32x2 => Sys2Proof.Machine.execStartP32x2 s
  | .startP64 => Sys2Proof.Machine.execStartP64 s
  | .startV128 => Sys2Proof.Machine.execStartV128 s
  | .clear => Sys2Proof.Machine.execClear s
  | .cmdIllegal word => Sys2Proof.Machine.execCmdIllegal word s

end Sys2Proof.Machine
end

