-- ==== Sys2Proof/Machine/PackedWord.lean ====
section
/-!
DEFINITION. The word-packed datapaths P32, P32X2 and P64 (`42_packed_word.md`): the primitives of R160 to
R169, on N-bit words with the N-bit constants as arguments, and the three steps.
-/

namespace Sys2Proof.Machine

open Sys2Proof

/-! ### Constants (R160) -/

/-- M_32: the low byte of every 16-bit slot. -/
def M32 : Word := 0x00FF00FF#32
/-- M_64: the low byte of every 16-bit slot. -/
def M64 : DWord := 0x00FF00FF00FF00FF#64
/-- BIAS_32: the rounding bias 2 in every 16-bit slot. -/
def BIAS32 : Word := 0x00020002#32
/-- BIAS_64: the rounding bias 2 in every 16-bit slot. -/
def BIAS64 : DWord := 0x0002000200020002#64
/-- K32: the low 16 bits of the word, the fold mask. -/
def K32 : Word := 0x0000FFFF#32
/-- K64A: the low 16 bits of each 32-bit group, the first fold mask. -/
def K64A : DWord := 0x0000FFFF0000FFFF#64
/-- K64B: the low 32 bits, the second fold mask. -/
def K64B : DWord := 0x00000000FFFFFFFF#64

/-! ### Primitives (R161 to R169) -/

/-- SplitEven_N: slot j holds byte 2j (R161). `M` is M_N. -/
def splitEven {N : Nat} (M w : BitVec N) : BitVec N := w &&& M

/-- SplitOdd_N: slot j holds byte 2j + 1 (R162). `M` is M_N. -/
def splitOdd {N : Nat} (M w : BitVec N) : BitVec N := (w >>> 8) &&& M

/-- LaneSum_N: the four split words and the bias, added modulo 2^N (R163). -/
def laneSum {N : Nat} (M bias T B : BitVec N) : BitVec N :=
  splitEven M T + splitOdd M T + splitEven M B + splitOdd M B + bias

/-- Extract_N: every slot shifted right by 2, low byte kept (R165). -/
def extract {N : Nat} (M s : BitVec N) : BitVec N := (s >>> 2) &&& M

/-- Fold_32: the two averaged bytes as a 16-bit value (R166). -/
def fold32 (a : Word) : BitVec 16 := (((a >>> 8) ||| a) &&& K32).setWidth 16

/-- f1 of Fold_64: each 32-bit group packed to its low 16 bits (R167). -/
def fold64First (a : DWord) : DWord := ((a >>> 8) ||| a) &&& K64A

/-- Fold_64: the four averaged bytes as a 32-bit value, by two folds (R167). -/
def fold64 (a : DWord) : Word :=
  (((fold64First a >>> 16) ||| fold64First a) &&& K64B).setWidth 32

/-- Avg32: two output bytes from 4 columns of two rows (R168). -/
def avg32 (T B : Word) : BitVec 16 := fold32 (extract M32 (laneSum M32 BIAS32 T B))

/-- Avg64: four output bytes from 8 columns of two rows (R169). -/
def avg64 (T B : DWord) : Word := fold64 (extract M64 (laneSum M64 BIAS64 T B))

/-- The combine of P32X2: the first half's result in the low half (R172). -/
def combine32x2 (p0 p1 : BitVec 16) : Word := p0.setWidth 32 ||| (p1.setWidth 32 <<< 16)

/-! ### Steps -/

/-- Step_P32: 4 columns of two rows, two output bytes (R170). -/
def State.stepP32 (s : State) (top bot dst : Nat) : Except Nat State := do
  let T ← s.memRead top 4
  let B ← s.memRead bot 4
  s.memWrite dst 2 (avg32 T B)

/-- Step_P32X2: two adjacent words of each row, four output bytes (R172). -/
def State.stepP32x2 (s : State) (top bot dst : Nat) : Except Nat State := do
  let T0 ← s.memRead top 4
  let T1 ← s.memRead (top + 4) 4
  let B0 ← s.memRead bot 4
  let B1 ← s.memRead (bot + 4) 4
  s.memWrite dst 4 (combine32x2 (avg32 T0 B0) (avg32 T1 B1))

/-- Step_P64: 8 columns of two rows, four output bytes (R174). -/
def State.stepP64 (s : State) (top bot dst : Nat) : Except Nat State := do
  let T ← s.memRead top 8
  let B ← s.memRead bot 8
  s.memWrite dst 4 (avg64 T B)

end Sys2Proof.Machine
end

