-- ==== Sys2Proof/Machine/Scalar.lean ====
section
/-!
DEFINITION. The scalar datapath (`41_scalar.md` R150).
-/

namespace Sys2Proof.Machine

open Sys2Proof

/-- The output byte of one 2×2 block: `s <- a + b + c + d + 2` on naturals, then `s >> 2` (R150). -/
def scalarAverage (a b c d : Byte) : Byte :=
  BitVec.ofNat 8 ((a.toNat + b.toNat + c.toNat + d.toNat + 2) >>> 2)

/-- Step_SCALAR: four 1-byte reads, top row first, and one 1-byte write (R150). The error is the
address that raised BusError (R134). -/
def State.stepScalar (s : State) (top bot dst : Nat) : Except Nat State := do
  let a ← s.memRead top 1
  let b ← s.memRead (top + 1) 1
  let c ← s.memRead bot 1
  let d ← s.memRead (bot + 1) 1
  s.memWrite dst 1 (scalarAverage a b c d)

end Sys2Proof.Machine
end

