-- ==== Sys2Proof/Machine/VectorSimd.lean ====
section
/-!
DEFINITION. The 128-bit SIMD datapath and the lane-narrowing shuffle (`43_vector_simd.md`), with the lane
notation of `00_scope.md` R8 and R10.
-/

namespace Sys2Proof.Machine

open Sys2Proof

/-! ### Lanes (R8, R190) -/

/-- Byte lane `i` of a vector: bits [8i+7:8i]. -/
def lane8 (v : Vec) (i : Nat) : Byte := v.extractLsb' (8 * i) 8

/-- 16-bit lane `j` of a vector: bits [16j+15:16j]. -/
def lane16 (v : Vec) (j : Nat) : BitVec 16 := v.extractLsb' (16 * j) 16

/-- The vector with the given 16-bit lanes. -/
def ofLanes16 (f : Nat → BitVec 16) : Vec :=
  f 7 ++ f 6 ++ f 5 ++ f 4 ++ f 3 ++ f 2 ++ f 1 ++ f 0

/-- The vector with the given byte lanes. -/
def ofLanes8 (f : Fin 16 → Byte) : Vec :=
  f 15 ++ f 14 ++ f 13 ++ f 12 ++ f 11 ++ f 10 ++ f 9 ++ f 8
    ++ f 7 ++ f 6 ++ f 5 ++ f 4 ++ f 3 ++ f 2 ++ f 1 ++ f 0

/-- `+u16`: each 16-bit lane added modulo 2^16, no carry between lanes (R8). -/
def addU16 (a b : Vec) : Vec := ofLanes16 (fun j => lane16 a j + lane16 b j)

/-- `>>u16 n`: each 16-bit lane shifted right with zero fill inside the lane (R8). -/
def shrU16 (v : Vec) (n : Nat) : Vec := ofLanes16 (fun j => lane16 v j >>> n)

/-! ### Vector primitives (R190 to R193) -/

/-- M_128: every 16-bit lane 0x00FF (R190). -/
def M128 : Vec := 0x00FF00FF00FF00FF00FF00FF00FF00FF#128
/-- BIAS_128: every 16-bit lane 2 (R190). -/
def BIAS128 : Vec := 0x00020002000200020002000200020002#128

/-- VSplitEven: 16-bit lane j is byte lane 2j (R191). -/
def vSplitEven (v : Vec) : Vec := v &&& M128

/-- VSplitOdd: 16-bit lane j is byte lane 2j + 1 (R191). -/
def vSplitOdd (v : Vec) : Vec := shrU16 v 8

/-- VLaneSum: the four split vectors and the bias, added lane by lane (R192). -/
def vLaneSum (T B : Vec) : Vec :=
  addU16 (addU16 (addU16 (addU16 (vSplitEven T) (vSplitOdd T)) (vSplitEven B)) (vSplitOdd B)) BIAS128

/-- VAvg: eight averaged bytes, each in the low byte of its 16-bit lane (R193). -/
def vAvg (T B : Vec) : Vec := shrU16 (vLaneSum T B) 2 &&& M128

/-! ### The lane-narrowing shuffle (R194, R195) -/

/-- `pair(a, b)[i]`: byte lane i of a for i < 16, byte lane i − 16 of b from 16 on (R10, R194). -/
def pairByte (a b : Vec) (i : Fin 32) : Byte :=
  if i.val < 16 then lane8 a i.val else lane8 b (i.val - 16)

/-- `shuffle(a, b, idx)`: byte lane i is `pair(a, b)[idx[i]]` (R194). -/
def shuffle (a b : Vec) (idx : Fin 16 → Fin 32) : Vec := ofLanes8 (fun i => pairByte a b (idx i))

/-- NARROW_IDX = [0, 2, 4, …, 30], fixed in hardware (R195). -/
def narrowIdx (i : Fin 16) : Fin 32 := ⟨2 * i.val, by omega⟩

/-- Narrow(A, B): the low bytes of A's 16-bit lanes and then those of B's (R195). -/
def narrow (A B : Vec) : Vec := shuffle A B narrowIdx

/-! ### Step -/

/-- Step_V128: 32 columns of two rows, sixteen output bytes (R196). -/
def State.stepV128 (s : State) (top bot dst : Nat) : Except Nat State := do
  let T0 ← s.memRead top 16
  let T1 ← s.memRead (top + 16) 16
  let B0 ← s.memRead bot 16
  let B1 ← s.memRead (bot + 16) 16
  s.memWrite dst 16 (narrow (vAvg T0 B0) (vAvg T1 B1))

end Sys2Proof.Machine
end

