-- ==== Sys2Proof/Machine/Engine.lean ====
section
/-!
DEFINITION. The engine step (`40_control.md` R131 to R134): one block group, indivisible.
-/

namespace Sys2Proof.Machine

open Sys2Proof

/-- Step_v, the datapath of the variant (R131): the state with the group's output bytes written, or the
address that raised BusError. -/
def State.stepVariant (s : State) (v : Variant) (top bot dst : Nat) : Except Nat State :=
  match v with
  | .scalar => s.stepScalar top bot dst
  | .p32 => s.stepP32 top bot dst
  | .p32x2 => s.stepP32x2 top bot dst
  | .p64 => s.stepP64 top bot dst
  | .v128 => s.stepV128 top bot dst

/-- The end of a completed step (R131, R133): PROGRESS grows by O, the cursor advances, and after the
last group of row H/2 − 1 the engine is idle with DONE = 1. -/
def State.advance (s : State) (v : Variant) (y k : Nat) : State :=
  let t := { s with progress := s.progress + BitVec.ofNat 32 (outBytes v) }
  if s.nextRow v y k = s.opH / 2 then { t with phase := .idle, done := true }
  else { t with phase := .run (s.nextRow v y k) (s.nextGroup v k) }

/-- EngineStep at cursor (y, k) (R131, R134). A step whose access is refused leaves no trace but the
BusError: its one write comes last, so nothing of it was performed. -/
def State.engineStep (s : State) (y k : Nat) : State :=
  let v := s.lastVar
  match s.stepVariant v (s.topAddr v y k) (s.botAddr v y k) (s.dstAddr v y k) with
  | .error addr => s.busError addr
  | .ok t => t.advance v y k

/-- The engine's turn: its one step in RUN, nothing in IDLE (R37, R131). -/
def State.engineTurn (s : State) : State :=
  match s.phase with
  | .idle => s
  | .run y k => s.engineStep y k

end Sys2Proof.Machine
end

