-- ==== Sys2Proof/Machine/HostPort.lean ====
section
/-!
DEFINITION. The host's side of the port: which of its accesses are register accesses and which reach
memory (`30_encoding.md` R91), the fetch of the next request, the other events of the outside world
(entry 2), and the host's notation (`30_encoding.md` R99, R100).
-/

namespace Sys2Proof.Machine

open Sys2Proof

/-! ### The register window -/

/-- A host access of `n` bytes from `a` touches the register window (R21, R60); the byte at `a` counts
whatever the size. -/
def touchesWindow (p : Config.Platform) (a n : Nat) : Bool :=
  rangesMeet a (max 1 n) p.engineBase Config.windowSize

/-! ### The value an output byte ends with (R259) -/

/-- How many engine turns the events place before the reset input is asserted; `none` where the engine
has all the turns it needs: no reset comes, or `hse.wait` waits for BUSY = 0 before it (R100, R250). -/
def turnsBeforeReset : List Event → Option Nat
  | [] => none
  | .reset :: _ => some 0
  | .wait :: _ => none
  | .engine :: rest => (turnsBeforeReset rest).map (· + 1)
  | .access _ :: rest => turnsBeforeReset rest
  | .load _ _ :: rest => turnsBeforeReset rest
  | .store _ _ :: rest => turnsBeforeReset rest

/-- `n` turns of the engine, and nothing else. -/
def State.engineTurns (s : State) : Nat → State
  | 0 => s
  | n + 1 => s.engineTurn.engineTurns n

/-- The engine turns that the running operation has before reset ends it: no more than the step bound
of R268 are of use. -/
def State.turnsLeft (s : State) : Nat :=
  (turnsBeforeReset s.pending).getD ((s.opH / 2) * (s.opW / columns s.lastVar))

/-- The final value of an output byte of the running operation: what memory holds when the operation has
ended, by completion, by BusError (R134, R215) or by the reset that the events hold (R251; entry 10). -/
def State.finalByte (s : State) (a : Nat) : Byte := (s.engineTurns s.turnsLeft).mem.readByte a

/-! ### The host's own accesses to memory -/

/-- A host store (R73). Every byte outside the register window is ordinary memory to the host, whatever
`MemOk` says of it to the engine: DESIGN CHOICE, unsafe, where R69 leaves open what lies there (entry 24).
While BUSY = 1 the host has no such move to a byte of the input or output range
(R74, R258, I3; entry 9). -/
def State.hostStore (s : State) (addr : BitVec 32) (bytes : List Byte) : Result :=
  if Config.addrSpace < addr.toNat + bytes.length then .fault (.noSuchAddress addr bytes.length)
  else if s.busy && (List.range bytes.length).any
      (fun i => s.inInput (addr.toNat + i) || s.inOutput (addr.toNat + i)) then
    .refused (.hostStoreToBuffer addr)
  else .next { s with mem := s.mem.writeBytes addr.toNat bytes }

/-- What a host load of an output byte returns while BUSY = 1: the byte's value from before START or
its final value, and which one is free (R259, I6; entry 10). `n` numbers the draw. -/
def State.drawOutputByte (s : State) (n a : Nat) : Byte :=
  if Config.busyReadSeesFinal n then s.finalByte a else s.memAtStart.readByte a

/-- One byte of a host load: memory's byte, but for an output byte while BUSY = 1 (R75, R259). -/
def State.loadByte (s : State) (n a : Nat) : Byte :=
  if s.busy && s.inOutput a then s.drawOutputByte n a else s.mem.readByte a

/-- A host load: its bytes in address order, each with a draw of its own. Every byte outside the register
window is ordinary memory to the host, whatever `MemOk` says of it to the engine: DESIGN CHOICE, unsafe,
where R69 leaves open what lies there (entry 24). -/
def State.hostLoad (s : State) (addr : BitVec 32) (size : Nat) : Result :=
  if Config.addrSpace < addr.toNat + size then .fault (.noSuchAddress addr size)
  else .next { s with
    loadData := (List.range size).map (fun i => s.loadByte (s.draws + i) (addr.toNat + i))
    draws := s.draws + size }

/-- One turn of `hse.wait` (R100): it reads STATUS, and while the value read shows BUSY = 1 it lets the
engine move and polls again (R267; entry 13). -/
def State.waitTurn (s : State) : State :=
  let t := s.respond (s.readReg .status)
  if t.readData.getLsbD 0 then { t with pending := .engine :: .wait :: t.pending } else t

/-! ### The next turn -/

/-- The fetch: the request that the register port presents next, and the state with it taken off the
list of events (R120). A host access that touches the register window is one, with OFF from its address
(R91). -/
def State.fetch (s : State) : Option (Request × State) :=
  match s.pending with
  | .access r :: rest => some (r, { s with pending := rest })
  | .load a n :: rest =>
    if touchesWindow s.platform a.toNat n then
      some (busRequest s.platform.engineBase false a n 0#32, { s with pending := rest })
    else none
  | .store a bs :: rest =>
    if touchesWindow s.platform a.toNat bs.length then
      some (busRequest s.platform.engineBase true a bs.length (bytesWord bs),
        { s with pending := rest })
    else none
  | _ => none

/-- A turn that runs no instruction: a host event that is no register access, or, with no event left,
the engine's turn (R267); an idle engine with nothing to come stays as it is (R136; entry 12). -/
def State.otherTurn (s : State) : Result :=
  match s.pending with
  | .load a n :: rest => { s with pending := rest }.hostLoad a n
  | .store a bs :: rest => { s with pending := rest }.hostStore a bs
  | .reset :: rest => .next { s with pending := rest }.resetEngine
  | .engine :: rest => .next { s with pending := rest }.engineTurn
  | .wait :: rest => .next { s with pending := rest }.waitTurn
  | .access _ :: _ => .next s
  | [] => .next s.engineTurn

/-! ### The host's notation (R99, R100) -/

/-- The register number of a register: the offset order of R21 (R91). -/
def regNumber : Reg → BitVec 10
  | .id => 0
  | .cap => 1
  | .ctrl => 2
  | .cmd => 3
  | .status => 4
  | .src => 5
  | .dst => 6
  | .width => 7
  | .height => 8
  | .dstLen => 9
  | .progress => 10
  | .faultAddr => 11

/-- `hse.wr REG, value`, the value taken modulo 2^32 (R99). -/
def hseWr (r : Reg) (value : Nat) : Event := .access (encodeWrite (regNumber r) (BitVec.ofNat 32 value))

/-- `hse.rd REG` (R99). -/
def hseRd (r : Reg) : Event := .access (encodeRead (regNumber r))

/-- `hse.cmd MNEMONIC`: a command word (R99). -/
def hseCmd (w : Word) : Event := .access (.cmd w)

/-- START's word for a variant (R96). -/
def startWord : Variant → Word
  | .scalar => 0x00000001#32
  | .p32 => 0x00000011#32
  | .p32x2 => 0x00000021#32
  | .p64 => 0x00000031#32
  | .v128 => 0x00000041#32

/-- `hse.run VARNAME, src, dst, w, h, len` (R100). -/
def hseRun (v : Variant) (src dst w h len : Nat) : List Event :=
  [hseWr .src src, hseWr .dst dst, hseWr .width w, hseWr .height h, hseWr .dstLen len,
   hseCmd (startWord v)]

/-- `hse.wait` (R100). -/
def hseWait : Event := .wait

/-- `hse.clear` (R100). -/
def hseClear : Event := hseCmd 0x00000002#32

end Sys2Proof.Machine
end

