-- ==== Sys2Proof/Machine/Step.lean ====
section
/-!
DEFINITION. One step of the machine: the next event of the outside world, or the engine's step.
-/

namespace Sys2Proof.Machine

open Sys2Proof

/-- One step: where a request is next on the register port, the instruction it decodes to (R120); else
the turn of the engine or of another host event. -/
def step (s : State) : Host.Outcome State Fault Refusal :=
  match s.fetch with
  | some (r, t) => exec (decode r) t
  | none => s.otherTurn

/-- `s` with a table word next on the register port, where `step` fetches (entry 2). A word that stands
for no request leaves `s` as it is. -/
def State.withFetchWord (s : State) (nbits w : Nat) : State :=
  match tableRequest nbits w with
  | some r => { s with pending := .access r :: s.pending }
  | none => s

end Sys2Proof.Machine
end

