-- ==== Sys2Proof/Machine/OutputContract.lean ====
section
/-!
DEFINITION. The output contract (`44_equivalence.md` R210): the rounding law, and the input and output
samples it is about (`20_memory.md` R61, R62).
-/

namespace Sys2Proof.Machine

open Sys2Proof

/-- The round-half-up average of a 2×2 block, `(a + b + c + d + 2) >> 2` on naturals (R210). -/
def roundedAverage (a b c d : Byte) : Byte :=
  BitVec.ofNat 8 ((a.toNat + b.toNat + c.toNat + d.toNat + 2) / 4)

/-- In(c, r): the sample at column `c` of row `r`, read from memory `m` (R61). -/
def State.inSample (s : State) (m : Memory) (c r : Nat) : Byte := m.readByte (s.opS + r * s.opW + c)

/-- The address of Out(x, y) (R62). -/
def State.outAddr (s : State) (x y : Nat) : Nat := s.opD + y * (s.opW / 2) + x

/-- The value R210 gives Out(x, y) for the input as it stands in memory `m`. -/
def State.outSample (s : State) (m : Memory) (x y : Nat) : Byte :=
  roundedAverage (s.inSample m (2 * x) (2 * y)) (s.inSample m (2 * x + 1) (2 * y))
    (s.inSample m (2 * x) (2 * y + 1)) (s.inSample m (2 * x + 1) (2 * y + 1))

/-- The value R210 gives the `i`-th byte of the output range: bytes stand in row-major order (R62). -/
def State.outByte (s : State) (m : Memory) (i : Nat) : Byte :=
  s.outSample m (i % (s.opW / 2)) (i / (s.opW / 2))

end Sys2Proof.Machine
end

