-- ==== Sys2Proof/Safety.lean ====
section
/-!
DEFINITION. What the claims about this machine are stated in: the accesses of an engine step, when the
platform admits an operation, when a START is refused, and the invariants of the machine
(`10_state.md` R29, R38; `44_equivalence.md` R215).
-/

namespace Sys2Proof.Machine

open Sys2Proof

/-! ### Accesses -/

/-- The accesses of one step in their order, each an address and a width in bytes: the reads of the top
row, those of the bottom row, and last the one write (`20_memory.md` R65, R72). -/
def stepAccesses (v : Variant) (top bot dst : Nat) : List (Nat × Nat) :=
  match v with
  | .scalar => [(top, 1), (top + 1, 1), (bot, 1), (bot + 1, 1), (dst, 1)]
  | .p32 => [(top, 4), (bot, 4), (dst, 2)]
  | .p32x2 => [(top, 4), (top + 4, 4), (bot, 4), (bot + 4, 4), (dst, 4)]
  | .p64 => [(top, 8), (bot, 8), (dst, 4)]
  | .v128 => [(top, 16), (top + 16, 16), (bot, 16), (bot + 16, 16), (dst, 16)]

/-- The accesses of the step at cursor (y, k) of the running operation (R131, R132). -/
def State.cursorAccesses (s : State) (y k : Nat) : List (Nat × Nat) :=
  stepAccesses s.lastVar (s.topAddr s.lastVar y k) (s.botAddr s.lastVar y k)
    (s.dstAddr s.lastVar y k)

/-- The memory port admits every access of the step at cursor (y, k). -/
def State.stepAdmitted (s : State) (y k : Nat) : Prop :=
  ∀ p ∈ s.cursorAccesses y k, memOk s.platform p.1 p.2 = true

/-- The memory port admits every access that lies inside the input range or inside the output range. -/
def State.buffersAdmitted (s : State) : Prop :=
  ∀ a n, 0 < n →
    (s.opS ≤ a ∧ a + n ≤ s.opS + s.opW * s.opH) ∨ (s.opD ≤ a ∧ a + n ≤ s.opD + s.opN) →
    memOk s.platform a n = true

/-- The next `n` turns are the engine's and the events `rest` follow: either no event is left, and every
turn is the engine's, or the schedule places `n` engine turns before `rest` (R120, R267; entry 2). -/
def State.engineTurnsNext (s : State) (n : Nat) (rest : List Event) : Prop :=
  (s.pending = [] ∧ rest = []) ∨ s.pending = List.replicate n .engine ++ rest

/-! ### The conditions of START (R126), as the spec words them -/

/-- The instruction START.<variant> (R96). -/
def startInstr : Variant → Instr
  | .scalar => .startScalar
  | .p32 => .startP32
  | .p32x2 => .startP32x2
  | .p64 => .startP64
  | .v128 => .startV128

/-- Code 8: variant 4 where HAS_V128 is false. -/
def badVariant (v : Variant) (s : State) : Prop := v = .v128 ∧ s.platform.hasV128 = false

/-- Code 1: width or height odd, or the width no multiple of G. -/
def badDimensions (v : Variant) (s : State) : Prop :=
  s.width.toNat % 2 = 1 ∨ s.height.toNat % 2 = 1 ∨ ¬ granularity v ∣ s.width.toNat

/-- Code 2: DST_LEN < (W div 2)·(H div 2). -/
def badLength (s : State) : Prop :=
  s.dstLen.toNat < (s.width.toNat / 2) * (s.height.toNat / 2)

/-- Code 3: SRC or DST no multiple of A. -/
def badAlignment (v : Variant) (s : State) : Prop :=
  ¬ alignment v ∣ s.src.toNat ∨ ¬ alignment v ∣ s.dst.toNat

/-- Code 4: a buffer reaches past 2^32. -/
def badRange (s : State) : Prop :=
  2 ^ 32 < s.src.toNat + s.width.toNat * s.height.toNat ∨
  2 ^ 32 < s.dst.toNat + (s.width.toNat / 2) * (s.height.toNat / 2)

/-- Code 5: N > 0 and the two half-open ranges intersect. -/
def badOverlap (s : State) : Prop :=
  0 < (s.width.toNat / 2) * (s.height.toNat / 2) ∧
  s.src.toNat < s.dst.toNat + (s.width.toNat / 2) * (s.height.toNat / 2) ∧
  s.dst.toNat < s.src.toNat + s.width.toNat * s.height.toNat

/-- Every check of R126 passes. -/
def startAccepted (v : Variant) (s : State) : Prop :=
  ¬ badVariant v s ∧ ¬ badDimensions v s ∧ ¬ badLength s ∧ ¬ badAlignment v s ∧ ¬ badRange s ∧
  ¬ badOverlap s

/-! ### Invariants -/

/-- The invariants of STATUS (R29): BUSY = 1 implies DONE = ERR = ERRCODE = 0; DONE and ERR are never
both 1; ERR = 0 if and only if ERRCODE = 0. -/
def State.StatusInv (s : State) : Prop :=
  (s.busy = true → s.done = false ∧ s.err = false ∧ s.errcode = none) ∧
  ¬ (s.done = true ∧ s.err = true) ∧
  (s.err = false ↔ s.errcode = none)

/-- In RUN the operation is one that START accepted, the cursor is inside the output image, and
PROGRESS = (y·(W/C) + k)·O (R38, R35). -/
def State.RunInv (s : State) : Prop :=
  ∀ y k, s.phase = .run y k →
    startAccepted s.lastVar s ∧ 0 < s.opN ∧
    y < s.opH / 2 ∧ k < s.opW / columns s.lastVar ∧
    s.progress.toNat = (y * (s.opW / columns s.lastVar) + k) * outBytes s.lastVar

/-- In RUN the input is as it stood at START, the output bytes before PROGRESS hold their R210 values,
and the others hold their values from before START (R213, R215). -/
def State.ContentsInv (s : State) : Prop :=
  s.busy = true →
    (∀ i, i < s.opW * s.opH → s.mem.readByte (s.opS + i) = s.memAtStart.readByte (s.opS + i)) ∧
    (∀ i, i < s.opN → s.mem.readByte (s.opD + i) =
      if i < s.progress.toNat then s.outByte s.memAtStart i else s.memAtStart.readByte (s.opD + i))

/-- Both memories of the state are in canonical form. -/
def State.MemInv (s : State) : Prop := s.mem.wf = true ∧ s.memAtStart.wf = true

/-- The invariant of the machine. -/
structure State.Inv (s : State) : Prop where
  status   : s.StatusInv
  run      : s.RunInv
  contents : s.ContentsInv
  mem      : s.MemInv

/-! ### The frame -/

/-- The instruction answers the next state `t`, and every byte of memory reads as before. -/
def RunsTo (i : Instr) (s t : State) : Prop :=
  exec i s = .next t ∧ ∀ a, Memory.readByte t.mem a = Memory.readByte s.mem a

/-- What a completed operation that started from `s` leaves in `t`: DONE = 1 alone, PROGRESS = N, every
output byte the rounding law's value and every other byte of memory as before (R133, R210, R212). -/
structure State.CompletedTo (s t : State) : Prop where
  busy     : t.busy = false
  done     : t.done = true
  err      : t.err = false
  progress : t.progress.toNat = s.opN
  output   : ∀ i, i < s.opN → Memory.readByte t.mem (s.opD + i) = s.outByte s.mem i
  frame    : ∀ a, ¬ (s.opD ≤ a ∧ a < s.opD + s.opN) →
    Memory.readByte t.mem a = Memory.readByte s.mem a

/-- What every refused START leaves (R126, R221, R224): the variant in LAST_VAR, PROGRESS and FAULT_ADDR
0, ERR = 1 with the code, DONE = 0 and BUSY = 0. -/
def refusedStart (v : Variant) (s : State) (e : EngineError) : State :=
  { s with
    lastVar := v, progress := 0#32, faultAddr := 0#32,
    err := true, errcode := some e, done := false, phase := .idle }

end Sys2Proof.Machine
end

