-- ==== Sys2Proof/Certificates/Slice0/Obligations.lean ====
section
/-!
DEFINITION. The statements for the provers. Each docstring names the rule of `spec/` it formalises.
-/

open Sys2Proof Sys2Proof.Machine

/-! ## Encoding -/

/-- Decode and encode agree on every well-formed instruction, with every operand (R92, R96). -/
def Obligations.DecodeOfEncodeIsIdentity : Prop :=
  ∀ i : Instr, i.wf = true → decode (encode i) = i

/-- Whatever the request, the decoder answers an instruction that stands for it: none-accesses name no
register, refused accesses break R91, illegal words are none of the seven (R91, R92, R96, R97). -/
def Obligations.DecodedInstructionsAreWellFormed : Prop :=
  ∀ r : Request, (decode r).wf = true

/-- R92, the MMIO decode table: a 4-byte access whose offset is a multiple of 4 is the row of its (REG,
DIR); every other access is R137's. `key` is DIR·2^12 + OFF. -/
def Obligations.MmioDecodeTableIsTotal : Prop :=
  (∀ (key : BitVec 13) (size : Nat) (data : Word), key.toNat % 4 ≠ 0 ∨ size ≠ 4 →
    decode (.mmio key size data) =
      .mmioMisaligned (decide (0x1000 ≤ key.toNat)) (BitVec.ofNat 12 key.toNat) size) ∧
  (∀ (key : BitVec 13) (data : Word), key.toNat % 4 = 0 →
    decode (.mmio key 4 data) =
      if key.toNat < 0x1000 then
        if key.toNat = 0x000 then .rdId else if key.toNat = 0x004 then .rdCap
        else if key.toNat = 0x008 then .rdCtrl else if key.toNat = 0x00C then .rdCmd
        else if key.toNat = 0x010 then .rdStatus else if key.toNat = 0x014 then .rdSrc
        else if key.toNat = 0x018 then .rdDst else if key.toNat = 0x01C then .rdWidth
        else if key.toNat = 0x020 then .rdHeight else if key.toNat = 0x024 then .rdDstLen
        else if key.toNat = 0x028 then .rdProgress else if key.toNat = 0x02C then .rdFaultAddr
        else .rdNone (BitVec.ofNat 10 (key.toNat / 4))
      else
        if key.toNat = 0x1000 then .wrId data else if key.toNat = 0x1004 then .wrCap data
        else if key.toNat = 0x1008 then .wrCtrl data else if key.toNat = 0x100C then .wrCmd data
        else if key.toNat = 0x1010 then .wrStatus data else if key.toNat = 0x1014 then .wrSrc data
        else if key.toNat = 0x1018 then .wrDst data else if key.toNat = 0x101C then .wrWidth data
        else if key.toNat = 0x1020 then .wrHeight data else if key.toNat = 0x1024 then .wrDstLen data
        else if key.toNat = 0x1028 then .wrProgress data
        else if key.toNat = 0x102C then .wrFaultAddr data
        else .wrNone (BitVec.ofNat 10 ((key.toNat - 0x1000) / 4)) data)

/-- R96: the legal command words are exactly seven, and every other word is illegal (R97). -/
def Obligations.LegalCommandWordsAreExactlySeven : Prop :=
  ∀ w : Word, decode (.cmd w) =
    if w = 0x00000000#32 then .nop else if w = 0x00000001#32 then .startScalar
    else if w = 0x00000011#32 then .startP32 else if w = 0x00000021#32 then .startP32x2
    else if w = 0x00000031#32 then .startP64 else if w = 0x00000041#32 then .startV128
    else if w = 0x00000002#32 then .clear else .cmdIllegal w

/-- A few words written out from the tables of R92 and R96 decode to their instructions (a sanity
statement). -/
def Obligations.SampleWordsDecode : Prop :=
  decode (.mmio 0b0000000010000#13 4 0#32) = .rdStatus ∧
  decode (.mmio 0b1000000011100#13 4 0x500#32) = .wrWidth 0x500#32 ∧
  decode (.mmio 0b1000000001100#13 4 0x41#32) = .wrCmd 0x41#32 ∧
  decode (.mmio 0b0000000110000#13 4 0#32) = .rdNone 12#10 ∧
  decode (.mmio 0b0000000010001#13 4 0#32) = .mmioMisaligned false 0x011#12 4 ∧
  decode (.cmd 0b00000000000000000000000000110001#32) = .startP64 ∧
  decode (.cmd 0b00000000000000000000000001010001#32) = .cmdIllegal 0x51#32

/-! ## The step -/

/-- A step runs the decoded instruction: with a register access next on the port, the step takes it off
the list of events and is `exec` of the instruction it decodes to (R120; the list is entry 2). A host
read or write at ENGINE_BASE + OFF is the access at OFF, of its size, and a word written is its DATA
(R91; that a word's bytes stand lowest first is entry 3). -/
def Obligations.StepRunsDecodedInstruction : Prop :=
  ∀ (s : State) (rest : List Event),
    (∀ r : Request, s.pending = .access r :: rest →
      step s = exec (decode r) { s with pending := rest }) ∧
    (∀ (addr : BitVec 32) (off : BitVec 12), addr.toNat = s.platform.engineBase + off.toNat →
      (∀ size : Nat, s.pending = .load addr size :: rest →
        step s =
          exec (decode (.mmio (BitVec.ofNat 13 off.toNat) size 0#32)) { s with pending := rest }) ∧
      (∀ data : Word, s.pending = .store addr (wordBytes data) :: rest →
        step s =
          exec (decode (.mmio (BitVec.ofNat 13 (0x1000 + off.toNat)) 4 data))
            { s with pending := rest }))

/-- `hse.cmd w` is `hse.wr CMD, w` (R99): a command word and the write of it to CMD do the same. -/
def Obligations.CommandWordRunsAsCmdWrite : Prop :=
  ∀ (w : Word) (s : State), exec (decode (.cmd w)) s = exec (.wrCmd w) s

/-! ## Register accesses -/

/-- R121: the value each read returns, and that a read changes nothing else. -/
def Obligations.RegisterReadsReturnTheirValues : Prop :=
  ∀ s : State,
    RunsTo .rdId s { s with readData := 0x48530007#32 } ∧
    RunsTo .rdCap s
      { s with readData := if s.platform.hasV128 then 0x0000001F#32 else 0x0000000F#32 } ∧
    RunsTo .rdCtrl s { s with readData := if s.ctrlIE then 1#32 else 0#32 } ∧
    RunsTo .rdCmd s { s with readData := 0#32 } ∧
    RunsTo .rdStatus s
      { s with readData :=
          (variantCode s.lastVar ++ 0b0000#4 ++ errcodeField s.errcode ++ 0b0000#4 ++
            BitVec.ofBool s.ignw ++ BitVec.ofBool s.err ++ BitVec.ofBool s.done ++
            BitVec.ofBool s.busy).setWidth 32 } ∧
    RunsTo .rdSrc s { s with readData := s.src } ∧
    RunsTo .rdDst s { s with readData := s.dst } ∧
    RunsTo .rdWidth s { s with readData := s.width } ∧
    RunsTo .rdHeight s { s with readData := s.height } ∧
    RunsTo .rdDstLen s { s with readData := s.dstLen } ∧
    RunsTo .rdProgress s { s with readData := s.progress } ∧
    RunsTo .rdFaultAddr s { s with readData := s.faultAddr }

/-- The bits of STATUS (the layout of R29): BUSY 0, DONE 1, ERR 2, IGNW 3, ERRCODE [11:8], LAST_VAR
[18:16], and every other bit 0. -/
def Obligations.StatusBitsStandWhereTheMapPutsThem : Prop :=
  ∀ s : State,
    s.statusWord.getLsbD 0 = s.busy ∧ s.statusWord.getLsbD 1 = s.done ∧
    s.statusWord.getLsbD 2 = s.err ∧ s.statusWord.getLsbD 3 = s.ignw ∧
    s.statusWord.extractLsb' 8 4 = errcodeField s.errcode ∧
    s.statusWord.extractLsb' 16 3 = variantCode s.lastVar ∧
    s.statusWord.extractLsb' 4 4 = 0#4 ∧ s.statusWord.extractLsb' 12 4 = 0#4 ∧
    s.statusWord.extractLsb' 19 13 = 0#13

/-- R23: an offset from 0x030 on names no register; it reads 0, and a write there changes no state. -/
def Obligations.UnnamedOffsetsReadZeroAndIgnoreWrites : Prop :=
  ∀ (reg : BitVec 10) (data : Word) (s : State), 12 ≤ reg.toNat →
    RunsTo (.rdNone reg) s { s with readData := 0#32 } ∧ RunsTo (.wrNone reg data) s s

/-- R122: a write of CTRL stores bit 0 in IE, BUSY or not, discards the others, and the IRQ level
follows at once. -/
def Obligations.CtrlWriteStoresInterruptEnable : Prop :=
  ∀ (data : Word) (s : State),
    RunsTo (.wrCtrl data) s { s with ctrlIE := data.getLsbD 0 } ∧
    ({ s with ctrlIE := data.getLsbD 0 } : State).irq = (data.getLsbD 0 && (s.done || s.err)) ∧
    ({ s with ctrlIE := data.getLsbD 0 } : State).readReg .ctrl = data &&& 1#32

/-- R123: a configuration write stores its data while BUSY = 0, and only sets IGNW while BUSY = 1. -/
def Obligations.ConfigurationWritesAreBusyLocked : Prop :=
  ∀ (data : Word) (s : State),
    (s.busy = false →
      RunsTo (.wrSrc data) s { s with src := data } ∧
      RunsTo (.wrDst data) s { s with dst := data } ∧
      RunsTo (.wrWidth data) s { s with width := data } ∧
      RunsTo (.wrHeight data) s { s with height := data } ∧
      RunsTo (.wrDstLen data) s { s with dstLen := data }) ∧
    (s.busy = true →
      RunsTo (.wrSrc data) s { s with ignw := true } ∧
      RunsTo (.wrDst data) s { s with ignw := true } ∧
      RunsTo (.wrWidth data) s { s with ignw := true } ∧
      RunsTo (.wrHeight data) s { s with ignw := true } ∧
      RunsTo (.wrDstLen data) s { s with ignw := true })

/-- R130: a write to a read-only register changes nothing, and does not set IGNW even while BUSY = 1. -/
def Obligations.ReadOnlyWritesChangeNothing : Prop :=
  ∀ (data : Word) (s : State),
    RunsTo (.wrId data) s s ∧ RunsTo (.wrCap data) s s ∧ RunsTo (.wrStatus data) s s ∧
    RunsTo (.wrProgress data) s s ∧ RunsTo (.wrFaultAddr data) s s

/-- R137: an access with OFF[1:0] ≠ 0 or of a size other than 4 bytes is a fault of the host step,
whether it is given by its KEY or by the host's address. -/
def Obligations.MisalignedAccessFaultsTheHostStep : Prop :=
  (∀ (isWrite : Bool) (off : BitVec 12) (size : Nat) (s : State),
    exec (.mmioMisaligned isWrite off size) s = .fault (.mmioBusError isWrite off size)) ∧
  (∀ (s : State) (key : BitVec 13) (size : Nat) (data : Word) (rest : List Event),
    s.pending = .access (.mmio key size data) :: rest → key.toNat % 4 ≠ 0 ∨ size ≠ 4 →
    step s =
      .fault (.mmioBusError (decide (0x1000 ≤ key.toNat)) (BitVec.ofNat 12 key.toNat) size)) ∧
  (∀ (s : State) (addr : BitVec 32) (off : BitVec 12) (rest : List Event),
    addr.toNat = s.platform.engineBase + off.toNat →
    (∀ size : Nat, s.pending = .load addr size :: rest → off.toNat % 4 ≠ 0 ∨ size ≠ 4 →
      step s = .fault (.mmioBusError false off size)) ∧
    (∀ bytes : List Byte, s.pending = .store addr bytes :: rest →
      off.toNat % 4 ≠ 0 ∨ bytes.length ≠ 4 →
      step s = .fault (.mmioBusError true off bytes.length)))

/-! ## Commands -/

/-- R128: NOP changes no state, whether BUSY is 0 or 1, and while BUSY = 1 it is the only command word of
which that is so: every other one sets an IGNW that is 0. -/
def Obligations.NopChangesNothing : Prop :=
  ∀ s : State, RunsTo .nop s s ∧
    (s.busy = true → s.ignw = false → ∀ w : Word, w ≠ 0#32 → exec (decode (.cmd w)) s ≠ .next s)

/-- R129: CLEAR while BUSY = 0 clears DONE, ERR, ERRCODE and IGNW, keeps every other register, and lowers
the IRQ; while BUSY = 1 it is ignored and sets IGNW. -/
def Obligations.ClearClearsCompletionAndErrorStatus : Prop :=
  ∀ s : State,
    (s.busy = false →
      RunsTo .clear s { s with done := false, err := false, errcode := none, ignw := false } ∧
      ({ s with done := false, err := false, errcode := none, ignw := false } : State).irq = false) ∧
    (s.busy = true → RunsTo .clear s { s with ignw := true })

/-- An illegal word while BUSY = 0 raises IllegalCommand: DONE 0, ERR 1, ERRCODE 7, and LAST_VAR,
PROGRESS and FAULT_ADDR unchanged (R97, and the IllegalCommand paragraph of R125). -/
def Obligations.IllegalWordRaisesIllegalCommand : Prop :=
  ∀ (w : Word) (s : State), s.busy = false →
    RunsTo (.cmdIllegal w) s
      { s with done := false, err := true, errcode := some .illegalCommand }

/-- R125: what a write of CMD does, word by word. START's own effect is that of the START statement. -/
def Obligations.CmdWriteFollowsTheDecodeRule : Prop :=
  ∀ (w : Word) (s : State),
    (s.busy = true → w = 0#32 → RunsTo (.wrCmd w) s s) ∧
    (s.busy = true → w ≠ 0#32 → RunsTo (.wrCmd w) s { s with ignw := true }) ∧
    (s.busy = false → w = 0#32 → RunsTo (.wrCmd w) s s) ∧
    (s.busy = false → w = 0x2#32 →
      RunsTo (.wrCmd w) s { s with done := false, err := false, errcode := none, ignw := false }) ∧
    (∀ v : Variant, s.busy = false → w = startWord v →
      ∃ t, RunsTo (.wrCmd w) s t ∧ RunsTo (startInstr v) s t) ∧
    (s.busy = false → w ∉ legalWords →
      RunsTo (.wrCmd w) s { s with done := false, err := true, errcode := some .illegalCommand })

/-- R135: while BUSY = 1 every command word other than NOP's is ignored and sets IGNW. -/
def Obligations.CommandsWhileBusyOnlySetIgnw : Prop :=
  ∀ s : State, s.busy = true →
    (∀ v : Variant, RunsTo (startInstr v) s { s with ignw := true }) ∧
    RunsTo .clear s { s with ignw := true } ∧
    (∀ w : Word, RunsTo (.cmdIllegal w) s { s with ignw := true }) ∧
    (∀ w : Word, w ≠ 0#32 → RunsTo (decode (.cmd w)) s { s with ignw := true })

/-- R126: the checks of START in their order, each with its error; the first that fails is reported, and
where all pass START is accepted (R127), with LAST_VAR, PROGRESS and FAULT_ADDR written. -/
def Obligations.StartReportsTheFirstFailingCheck : Prop :=
  ∀ (v : Variant) (s : State), s.busy = false →
    (badVariant v s → RunsTo (startInstr v) s (refusedStart v s .unsupportedVariant)) ∧
    (¬ badVariant v s → badDimensions v s →
      RunsTo (startInstr v) s (refusedStart v s .invalidDimensions)) ∧
    (¬ badVariant v s → ¬ badDimensions v s → badLength s →
      RunsTo (startInstr v) s (refusedStart v s .bufferTooSmall)) ∧
    (¬ badVariant v s → ¬ badDimensions v s → ¬ badLength s → badAlignment v s →
      RunsTo (startInstr v) s (refusedStart v s .misalignedBuffer)) ∧
    (¬ badVariant v s → ¬ badDimensions v s → ¬ badLength s → ¬ badAlignment v s → badRange s →
      RunsTo (startInstr v) s (refusedStart v s .addressOverflow)) ∧
    (¬ badVariant v s → ¬ badDimensions v s → ¬ badLength s → ¬ badAlignment v s → ¬ badRange s →
      badOverlap s → RunsTo (startInstr v) s (refusedStart v s .bufferOverlap)) ∧
    (startAccepted v s → ∃ t, RunsTo (startInstr v) s t ∧ t.lastVar = v ∧ t.progress = 0#32 ∧
      t.faultAddr = 0#32 ∧ t.err = false ∧ t.errcode = none ∧
      (t.done = true ↔ (s.width.toNat / 2) * (s.height.toNat / 2) = 0) ∧ t.done = !t.busy)

/-- R127, with the writes R126 makes before it: an accepted START whose output is empty is done at once;
any other enters RUN with the cursor at (0, 0). Every other register is kept. `memAtStart` is the model's
own record of memory at START (entry 10). -/
def Obligations.AcceptedStartBeginsOrCompletes : Prop :=
  ∀ (v : Variant) (s : State), s.busy = false → startAccepted v s →
    ((s.width.toNat / 2) * (s.height.toNat / 2) = 0 →
      RunsTo (startInstr v) s
        { s with
          lastVar := v, progress := 0#32, faultAddr := 0#32,
          done := true, err := false, errcode := none }) ∧
    (0 < (s.width.toNat / 2) * (s.height.toNat / 2) →
      RunsTo (startInstr v) s
        { s with
          lastVar := v, progress := 0#32, faultAddr := 0#32,
          done := false, err := false, errcode := none, phase := .run 0 0, memAtStart := s.mem })

/-! ## Constants -/

/-- The variant table of R2: VAR, G, A, C, O and the access widths. -/
def Obligations.VariantTable : Prop :=
  (variantCode .scalar = 0#3 ∧ variantCode .p32 = 1#3 ∧ variantCode .p32x2 = 2#3 ∧
    variantCode .p64 = 3#3 ∧ variantCode .v128 = 4#3) ∧
  (granularity .scalar = 2 ∧ granularity .p32 = 4 ∧ granularity .p32x2 = 8 ∧ granularity .p64 = 8 ∧
    granularity .v128 = 32) ∧
  (alignment .scalar = 1 ∧ alignment .p32 = 4 ∧ alignment .p32x2 = 4 ∧ alignment .p64 = 8 ∧
    alignment .v128 = 16) ∧
  (∀ v : Variant, columns v = granularity v ∧ outBytes v = columns v / 2) ∧
  (∀ v : Variant, ∀ top bot dst : Nat,
    (stepAccesses v top bot dst).getLast? =
      some (dst, match v with
        | .scalar => 1
        | .p32 => 2
        | .p32x2 => 4
        | .p64 => 4
        | .v128 => 16) ∧
    ∀ q ∈ (stepAccesses v top bot dst).dropLast,
      q.2 = match v with
        | .scalar => 1
        | .p32 => 4
        | .p32x2 => 4
        | .p64 => 8
        | .v128 => 16)

/-- The error codes of R221. -/
def Obligations.ErrorCodeTable : Prop :=
  errcodeField none = 0#4 ∧ errcodeField (some .invalidDimensions) = 1#4 ∧
  errcodeField (some .bufferTooSmall) = 2#4 ∧ errcodeField (some .misalignedBuffer) = 3#4 ∧
  errcodeField (some .addressOverflow) = 4#4 ∧ errcodeField (some .bufferOverlap) = 5#4 ∧
  errcodeField (some .busError) = 6#4 ∧ errcodeField (some .illegalCommand) = 7#4 ∧
  errcodeField (some .unsupportedVariant) = 8#4

/-- The memory port admits no access that touches the register window (R60, D41), and none outside the
address space. -/
def Obligations.WindowIsNeverReached : Prop :=
  ∀ (p : Config.Platform) (a n : Nat),
    (∃ b, a ≤ b ∧ b < a + n ∧ p.engineBase ≤ b ∧ b < p.engineBase + 0x1000) ∨ 2 ^ 32 < a + n →
    memOk p a n = false

/-! ## Reset and interrupt -/

/-- R250 on `State.reset`: what every register reads, the phase IDLE, the IRQ low. -/
def Obligations.ResetValues : Prop :=
  State.reset.readReg .id = 0x48530007#32 ∧ State.reset.readReg .cap = 0x0000001F#32 ∧
  (∀ r : Reg, r ≠ .id → r ≠ .cap → State.reset.readReg r = 0#32) ∧
  State.reset.phase = .idle ∧ State.reset.irq = false

/-- R250 to R252 on the reset input: in every state, BUSY or not, it makes every register 0 (ID and CAP
keep their constants), leaves the engine idle with the IRQ low, and touches no byte of memory. -/
def Obligations.ResetInputClearsRegistersAndKeepsMemory : Prop :=
  ∀ (s : State) (rest : List Event), s.pending = .reset :: rest →
    ∃ t, step s = .next t ∧
      (∀ r : Reg, r ≠ .id → r ≠ .cap → t.readReg r = 0#32) ∧
      t.readReg .id = 0x48530007#32 ∧ t.readReg .cap = s.readReg .cap ∧
      t.phase = .idle ∧ t.irq = false ∧ t.platform = s.platform ∧
      ∀ a, Memory.readByte t.mem a = Memory.readByte s.mem a

/-- R41, R227: IRQ = CTRL.IE & (STATUS.DONE | STATUS.ERR), by the bits a host reads; it drives the one
line IRQ_LINE. -/
def Obligations.IrqIsALevelOfCtrlAndStatus : Prop :=
  ∀ (s : State) (line : Nat),
    s.irq = ((s.readReg .ctrl).getLsbD 0 &&
      ((s.readReg .status).getLsbD 1 || (s.readReg .status).getLsbD 2)) ∧
    s.irqOn line = (decide (line = s.platform.irqLine) && s.irq)

/-! ## The packed-word datapaths -/

/-- R164 for N = 32 and N = 64: no carry between slots; slot j of LaneSum is the exact sum of its four
bytes and the bias, in [2, 1022]. -/
def Obligations.PackedLaneSumsNeverCarry : Prop :=
  (∀ (T B : Word) (j : Nat), j < 2 →
    ((laneSum M32 BIAS32 T B).extractLsb' (16 * j) 16).toNat =
      (T.extractLsb' (16 * j) 8).toNat + (T.extractLsb' (16 * j + 8) 8).toNat +
      (B.extractLsb' (16 * j) 8).toNat + (B.extractLsb' (16 * j + 8) 8).toNat + 2 ∧
    2 ≤ ((laneSum M32 BIAS32 T B).extractLsb' (16 * j) 16).toNat ∧
    ((laneSum M32 BIAS32 T B).extractLsb' (16 * j) 16).toNat ≤ 1022) ∧
  (∀ (T B : DWord) (j : Nat), j < 4 →
    ((laneSum M64 BIAS64 T B).extractLsb' (16 * j) 16).toNat =
      (T.extractLsb' (16 * j) 8).toNat + (T.extractLsb' (16 * j + 8) 8).toNat +
      (B.extractLsb' (16 * j) 8).toNat + (B.extractLsb' (16 * j + 8) 8).toNat + 2 ∧
    2 ≤ ((laneSum M64 BIAS64 T B).extractLsb' (16 * j) 16).toNat ∧
    ((laneSum M64 BIAS64 T B).extractLsb' (16 * j) 16).toNat ≤ 1022)

/-- R168: byte i of Avg32 is the rounded average of the 2×2 block at columns 2i, 2i + 1. -/
def Obligations.Avg32BytesAreRoundedAverages : Prop :=
  ∀ (T B : Word) (i : Nat), i < 2 →
    (avg32 T B).extractLsb' (8 * i) 8 =
      roundedAverage (T.extractLsb' (16 * i) 8) (T.extractLsb' (16 * i + 8) 8)
        (B.extractLsb' (16 * i) 8) (B.extractLsb' (16 * i + 8) 8)

/-- R169: byte i of Avg64 is the rounded average of the 2×2 block at columns 2i, 2i + 1. -/
def Obligations.Avg64BytesAreRoundedAverages : Prop :=
  ∀ (T B : DWord) (i : Nat), i < 4 →
    (avg64 T B).extractLsb' (8 * i) 8 =
      roundedAverage (T.extractLsb' (16 * i) 8) (T.extractLsb' (16 * i + 8) 8)
        (B.extractLsb' (16 * i) 8) (B.extractLsb' (16 * i + 8) 8)

/-! ## The vector datapath -/

/-- R192: 16-bit lane j of VLaneSum is the exact sum of its four bytes and the bias, in [2, 1022]; no
lane wraps. -/
def Obligations.VectorLaneSumsNeverWrap : Prop :=
  ∀ (T B : Vec) (j : Nat), j < 8 →
    (lane16 (vLaneSum T B) j).toNat =
      (lane8 T (2 * j)).toNat + (lane8 T (2 * j + 1)).toNat +
      (lane8 B (2 * j)).toNat + (lane8 B (2 * j + 1)).toNat + 2 ∧
    2 ≤ (lane16 (vLaneSum T B) j).toNat ∧ (lane16 (vLaneSum T B) j).toNat ≤ 1022

/-- R193: 16-bit lane j of VAvg holds the rounded average in its low byte and 0 in its high byte. -/
def Obligations.VectorAveragesStandInLowBytes : Prop :=
  ∀ (T B : Vec) (j : Nat), j < 8 →
    lane8 (vAvg T B) (2 * j) =
      roundedAverage (lane8 T (2 * j)) (lane8 T (2 * j + 1)) (lane8 B (2 * j)) (lane8 B (2 * j + 1)) ∧
    lane8 (vAvg T B) (2 * j + 1) = 0#8

/-- R194: byte lane i of a shuffle is the byte lane of the pair that its index names. -/
def Obligations.ShuffleSelectsItsIndexedLanes : Prop :=
  ∀ (a b : Vec) (idx : Fin 16 → Fin 32) (i : Fin 16),
    lane8 (shuffle a b idx) i =
      if (idx i).val < 16 then lane8 a (idx i).val else lane8 b ((idx i).val - 16)

/-- R195: Narrow gives the low bytes of A's eight 16-bit lanes, then those of B's, in lane order. -/
def Obligations.NarrowPacksLowBytesLeftToRight : Prop :=
  ∀ (A B : Vec) (i : Nat), i < 16 →
    lane8 (narrow A B) i = if i < 8 then lane8 A (2 * i) else lane8 B (2 * (i - 8))

/-! ## The engine step -/

/-- The engine has a step only in RUN (R37, R131): with BUSY = 0 its turn changes nothing. Where its turn
is next, with no event left or placed by the schedule, the step is that turn in every state; and
`hse.wait` reads STATUS and, while BUSY = 1, gives the engine the next turn before it reads again (R100).
That an idle machine with nothing to come stays as it is, and how a wait interleaves, are the model's
choices (entries 12 and 13). -/
def Obligations.EngineStepsOnlyInRun : Prop :=
  ∀ s : State, (s.busy = true ↔ s.phase ≠ .idle) ∧ (s.busy = false → s.engineTurn = s) ∧
    (s.busy = false → s.pending = [] → step s = .next s) ∧
    ∀ rest : List Event,
      (s.engineTurnsNext 1 rest → step s = .next { s with pending := rest }.engineTurn) ∧
      (s.busy = false → s.pending = .engine :: rest → step s = .next { s with pending := rest }) ∧
      (s.pending = .wait :: rest → step s = .next
        { s with
          readData := s.statusWord
          pending := if s.busy then .engine :: .wait :: rest else rest })

/-- Every variant's step, where its accesses are admitted, writes the rounded average of block j to
output byte j of its group, for each of its O output bytes, and changes no other byte (R131, R132, R150,
R168 to R174, R196, R210), wherever the schedule places the step (R120). Memory in canonical form is an
invariant of every step. -/
def Obligations.EngineStepWritesRoundedAverages : Prop :=
  ∀ (s : State) (y k : Nat) (rest : List Event), s.phase = .run y k → s.engineTurnsNext 1 rest →
    s.mem.wf = true → s.stepAdmitted y k →
    ∃ t, step s = .next t ∧
      (∀ j, j < outBytes s.lastVar →
        Memory.readByte t.mem (s.dstAddr s.lastVar y k + j) =
          roundedAverage
            (Memory.readByte s.mem (s.topAddr s.lastVar y k + 2 * j))
            (Memory.readByte s.mem (s.topAddr s.lastVar y k + 2 * j + 1))
            (Memory.readByte s.mem (s.botAddr s.lastVar y k + 2 * j))
            (Memory.readByte s.mem (s.botAddr s.lastVar y k + 2 * j + 1))) ∧
      (∀ a, ¬ (s.dstAddr s.lastVar y k ≤ a ∧ a < s.dstAddr s.lastVar y k + outBytes s.lastVar) →
        Memory.readByte t.mem a = Memory.readByte s.mem a)

/-- A completed step (R131 to R133): PROGRESS grows by O, the cursor moves right, then to the next row,
and after the last group of the last row BUSY = 0 and DONE = 1; every other register is kept, wherever
the schedule places the step (R120). -/
def Obligations.EngineStepAdvancesRowMajor : Prop :=
  ∀ (s : State) (y k : Nat) (rest : List Event), s.phase = .run y k → s.engineTurnsNext 1 rest →
    y < s.opH / 2 → s.stepAdmitted y k →
    ∃ m, step s = .next
      { s with
        pending := rest
        mem := m
        progress := s.progress + BitVec.ofNat 32 (outBytes s.lastVar)
        done := if k + 1 < s.opW / columns s.lastVar ∨ y + 1 ≠ s.opH / 2 then s.done else true
        phase :=
          if k + 1 < s.opW / columns s.lastVar then .run y (k + 1)
          else if y + 1 ≠ s.opH / 2 then .run (y + 1) 0
          else .idle }

/-- R134: at the first access that `MemOk` refuses the operation ends with BusError, FAULT_ADDR is its
address, PROGRESS is kept, and no byte of memory changes, wherever the schedule places the step. -/
def Obligations.BusErrorIsPrecise : Prop :=
  ∀ (s : State) (y k i a n : Nat) (rest : List Event), s.phase = .run y k →
    s.engineTurnsNext 1 rest →
    (s.cursorAccesses y k)[i]? = some (a, n) → memOk s.platform a n = false →
    (∀ j q, j < i → (s.cursorAccesses y k)[j]? = some q → memOk s.platform q.1 q.2 = true) →
    ∃ t, step s = .next t ∧
      t = { s with
        pending := rest, faultAddr := BitVec.ofNat 32 a, phase := .idle, err := true, errcode := some .busError,
        done := false } ∧
      ∀ b, Memory.readByte t.mem b = Memory.readByte s.mem b

/-- In an operation every access is aligned to its own width (R66), every read lies in the input range
(R70) and the write in the output range (R71). -/
def Obligations.AccessesAreAlignedAndInsideTheBuffers : Prop :=
  ∀ (s : State) (y k : Nat), s.RunInv → s.phase = .run y k →
    (∀ q ∈ s.cursorAccesses y k, q.2 ∣ q.1) ∧
    (∀ q ∈ (s.cursorAccesses y k).dropLast,
      s.opS ≤ q.1 ∧ q.1 + q.2 ≤ s.opS + s.opW * s.opH) ∧
    (∀ q ∈ (s.cursorAccesses y k).getLast?, s.opD ≤ q.1 ∧ q.1 + q.2 ≤ s.opD + s.opN)

/-! ## Invariants -/

/-- The invariants of STATUS that R29 lists, kept by every step. -/
def Obligations.StepKeepsStatusInvariants : Prop :=
  ∀ s t : State, s.StatusInv → step s = .next t → t.StatusInv

/-- Every step keeps memory in its canonical form. -/
def Obligations.StepKeepsMemoryCanonical : Prop :=
  ∀ s t : State, s.MemInv → step s = .next t → t.MemInv

/-- Every step keeps the invariant of the machine: STATUS, the cursor and PROGRESS of the running
operation, its input as at START, its output written up to PROGRESS, memory in canonical form (R29, R35,
R38, R213, R215). -/
def Obligations.StepKeepsTheInvariant : Prop :=
  ∀ s t : State, s.Inv → step s = .next t → t.Inv

/-- The state after reset meets the invariant. -/
def Obligations.ResetMeetsTheInvariant : Prop :=
  State.reset.Inv

/-! ## Operations -/

/-- R210: when an operation completes, by whatever interleaving, every Out(x, y) is the rounding law's
value of the input as it stood at START. -/
def Obligations.CompletedOperationMeetsTheRoundingLaw : Prop :=
  ∀ s t : State, s.Inv → s.busy = true → step s = .next t → t.busy = false → t.done = true →
    t.progress.toNat = (s.opW / 2) * (s.opH / 2) ∧
    ∀ x y, x < s.opW / 2 → y < s.opH / 2 →
      Memory.readByte t.mem (s.opD + y * (s.opW / 2) + x) =
        roundedAverage
          (Memory.readByte s.memAtStart (s.opS + (2 * y) * s.opW + 2 * x))
          (Memory.readByte s.memAtStart (s.opS + (2 * y) * s.opW + (2 * x + 1)))
          (Memory.readByte s.memAtStart (s.opS + (2 * y + 1) * s.opW + 2 * x))
          (Memory.readByte s.memAtStart (s.opS + (2 * y + 1) * s.opW + (2 * x + 1)))

/-- R215: when an operation ends by BusError or by reset, the first PROGRESS output bytes (PROGRESS as it
stood before) hold their R210 values, the others their values from before START, and PROGRESS is a
multiple of O. -/
def Obligations.PartialOutputIsAPrefix : Prop :=
  ∀ s t : State, s.Inv → s.busy = true → step s = .next t → t.busy = false → t.done = false →
    (t.err = true → t.progress = s.progress) ∧
    outBytes s.lastVar ∣ s.progress.toNat ∧
    ∀ i, i < s.opN →
      Memory.readByte t.mem (s.opD + i) =
        if i < s.progress.toNat then s.outByte s.memAtStart i
        else Memory.readByte s.memAtStart (s.opD + i)

/-- R213: no engine step writes a byte of the input. -/
def Obligations.EngineNeverWritesItsInput : Prop :=
  ∀ (s : State) (a : Nat), s.RunInv → s.mem.wf = true → s.opS ≤ a → a < s.opS + s.opW * s.opH →
    Memory.readByte s.engineTurn.mem a = Memory.readByte s.mem a

/-- An accepted operation on a platform that admits its buffers ends after exactly (H div 2)·(W div C)
engine steps, and not before, with DONE = 1, PROGRESS = N, every output byte the rounding law's value and
every other byte of memory as before (R133, R210, R212, R268): where the host leaves the engine its turns,
and where it waits with `hse.wait` (R100), whose last read shows BUSY = 0. How the schedule is held and
how a wait interleaves are the model's (entries 2 and 13). -/
def Obligations.AcceptedOperationRunsToCompletion : Prop :=
  ∀ (v : Variant) (s : State) (rest : List Event), s.busy = false → s.mem.wf = true →
    startAccepted v s → 0 < s.opN → s.buffersAdmitted →
    (s.engineTurnsNext ((s.opH / 2) * (s.opW / columns v)) rest →
      ∃ u t : State, exec (startInstr v) s = .next u ∧
        (∀ n, n < (s.opH / 2) * (s.opW / columns v) →
          ∃ x : State, Sys2Proof.core.run n u = .next x ∧ x.busy = true) ∧
        Sys2Proof.core.run ((s.opH / 2) * (s.opW / columns v)) u = .next t ∧
        s.CompletedTo t ∧ t.pending = rest) ∧
    (s.pending = .wait :: rest →
      ∃ u t : State, exec (startInstr v) s = .next u ∧
        Sys2Proof.core.run (2 * ((s.opH / 2) * (s.opW / columns v)) + 1) u = .next t ∧
        s.CompletedTo t ∧ t.pending = rest ∧ t.readData = t.statusWord)

/-- R211: every variant writes the bytes that SCALAR writes for the same width, height and input bytes,
wherever the buffers stand and whatever the host does after. -/
def Obligations.VariantsAgreeWithScalar : Prop :=
  ∀ (v : Variant) (s s' : State) (rest rest' : List Event),
    s.busy = false → s.engineTurnsNext ((s.opH / 2) * (s.opW / columns v)) rest →
    s.mem.wf = true → startAccepted v s → s.buffersAdmitted →
    s'.busy = false → s'.engineTurnsNext ((s.opH / 2) * (s.opW / 2)) rest' →
    s'.mem.wf = true → startAccepted .scalar s' → s'.buffersAdmitted →
    0 < s.opN → s'.width = s.width → s'.height = s.height →
    (∀ i, i < s.opW * s.opH →
      Memory.readByte s'.mem (s'.opS + i) = Memory.readByte s.mem (s.opS + i)) →
    ∃ u t u' t' : State,
      exec (startInstr v) s = .next u ∧
      Sys2Proof.core.run ((s.opH / 2) * (s.opW / columns v)) u = .next t ∧ t.done = true ∧
      exec .startScalar s' = .next u' ∧
      Sys2Proof.core.run ((s.opH / 2) * (s.opW / 2)) u' = .next t' ∧ t'.done = true ∧
      ∀ i, i < s.opN →
        Memory.readByte t.mem (s.opD + i) = Memory.readByte t'.mem (s'.opD + i)

/-- Every operation ends (R267, R268), by DONE or by an error, whatever the platform admits: from any
state of a running operation the engine is idle within (H div 2)·(W div C) of its steps where they are
the next turns, and an `hse.wait` ends within twice as many steps and one, its last read showing BUSY = 0
(R100). How the schedule is held and how a wait interleaves are the model's (entries 2 and 13). -/
def Obligations.EveryOperationEndsWithinItsStepBound : Prop :=
  ∀ (s : State) (rest : List Event), s.Inv → s.busy = true →
    (s.engineTurnsNext ((s.opH / 2) * (s.opW / columns s.lastVar)) rest →
      ∃ (n : Nat) (t : State), n ≤ (s.opH / 2) * (s.opW / columns s.lastVar) ∧
        Sys2Proof.core.run n s = .next t ∧ t.busy = false ∧ (t.done = true ∨ t.err = true)) ∧
    (s.pending = .wait :: rest →
      ∃ (n : Nat) (t : State), n ≤ 2 * ((s.opH / 2) * (s.opW / columns s.lastVar)) + 1 ∧
        Sys2Proof.core.run n s = .next t ∧ t.busy = false ∧ (t.done = true ∨ t.err = true) ∧
        t.pending = rest ∧ t.readData = t.statusWord)

/-! ## Who writes what -/

/-- While BUSY = 1 no step but the reset input changes the operation's parameters (R39), nor the memory
as it stood at START, which the model keeps in `memAtStart` (entry 10). -/
def Obligations.ParametersAreStableWhileBusy : Prop :=
  ∀ s t : State, s.busy = true → (∀ rest, s.pending ≠ .reset :: rest) → step s = .next t →
    t.src = s.src ∧ t.dst = s.dst ∧ t.width = s.width ∧ t.height = s.height ∧
    t.dstLen = s.dstLen ∧ t.lastVar = s.lastVar ∧ t.memAtStart = s.memAtStart

/-- No register access and no command changes a byte of memory: only engine steps and the host's own
stores do (R60, R126: a START makes no memory access). -/
def Obligations.InstructionsLeaveMemory : Prop :=
  ∀ (i : Instr) (s t : State), exec i s = .next t →
    ∀ a, Memory.readByte t.mem a = Memory.readByte s.mem a

/-- Only reset, a START decoded while idle and a completed engine step write PROGRESS (R35). -/
def Obligations.OnlyResetStartAndStepsWriteProgress : Prop :=
  ∀ s t : State, step s = .next t → t.progress ≠ s.progress →
    (∃ rest, s.pending = .reset :: rest) ∨
    (s.busy = false ∧ t.progress = 0#32 ∧ ∃ r u v, s.fetch = some (r, u) ∧
      (decode r = startInstr v ∨ decode r = .wrCmd (startWord v))) ∨
    (s.busy = true ∧ t.progress = s.progress + BitVec.ofNat 32 (outBytes s.lastVar) ∧
      (s.pending = [] ∨ ∃ rest, s.pending = .engine :: rest))

/-- Only a BusError, a START decoded while idle and reset write FAULT_ADDR (R36). -/
def Obligations.OnlyBusErrorStartAndResetWriteFaultAddr : Prop :=
  ∀ s t : State, step s = .next t → t.faultAddr ≠ s.faultAddr →
    (∃ rest, s.pending = .reset :: rest) ∨
    (s.busy = false ∧ t.faultAddr = 0#32 ∧ ∃ r u v, s.fetch = some (r, u) ∧
      (decode r = startInstr v ∨ decode r = .wrCmd (startWord v))) ∨
    (s.busy = true ∧ t.err = true ∧ t.errcode = some .busError ∧
      (s.pending = [] ∨ ∃ rest, s.pending = .engine :: rest))

/-- IGNW is sticky: only a CLEAR decoded while idle and reset clear it (R29). -/
def Obligations.OnlyClearAndResetClearIgnw : Prop :=
  ∀ s t : State, step s = .next t → s.ignw = true → t.ignw = false →
    (∃ rest, s.pending = .reset :: rest) ∨
    (s.busy = false ∧ ∃ r u, s.fetch = some (r, u) ∧
      (decode r = .clear ∨ decode r = .wrCmd 0x2#32))

/-- The engine never becomes BUSY but by an accepted START (R29, R127). -/
def Obligations.OnlyAnAcceptedStartSetsBusy : Prop :=
  ∀ s t : State, step s = .next t → s.busy = false → t.busy = true →
    ∃ r u v, s.fetch = some (r, u) ∧
      (decode r = startInstr v ∨ decode r = .wrCmd (startWord v)) ∧
      startAccepted v s ∧ 0 < s.opN ∧ t.lastVar = v ∧ t.phase = .run 0 0

/-- No step changes the platform, so ID and CAP are constant (R25, R26). -/
def Obligations.IdAndCapAreConstant : Prop :=
  ∀ s t : State, step s = .next t →
    t.platform = s.platform ∧ t.readReg .id = s.readReg .id ∧ t.readReg .cap = s.readReg .cap

/-! ## The host's own accesses to memory -/

/-- While BUSY = 1 the host has no move that stores to a byte of the input or the output range (R74, R258;
the refusal is the model's form of it, entry 9). -/
def Obligations.HostStoreToRunningBuffersHasNoMeaning : Prop :=
  ∀ (s : State) (addr : BitVec 32) (bytes : List Byte) (i : Nat) (rest : List Event),
    s.pending = .store addr bytes :: rest → s.busy = true → i < bytes.length →
    (s.inInput (addr.toNat + i) = true ∨ s.inOutput (addr.toNat + i) = true) →
    addr.toNat + bytes.length ≤ 2 ^ 32 → touchesWindow s.platform addr.toNat bytes.length = false →
    step s = .refused (.hostStoreToBuffer addr)

/-- A host store outside the register window that touches no buffer of a running operation changes the
bytes it names and nothing else; one that reaches past the address space faults (the model's host
events, entries 2, 16, 22, 23 and 24). -/
def Obligations.HostStoreWritesItsBytes : Prop :=
  ∀ (s : State) (addr : BitVec 32) (bytes : List Byte) (rest : List Event),
    s.pending = .store addr bytes :: rest →
    touchesWindow s.platform addr.toNat bytes.length = false →
    (2 ^ 32 < addr.toNat + bytes.length → step s = .fault (.noSuchAddress addr bytes.length)) ∧
    (addr.toNat + bytes.length ≤ 2 ^ 32 → s.mem.wf = true →
      (s.busy = true → ∀ i, i < bytes.length →
        s.inInput (addr.toNat + i) = false ∧ s.inOutput (addr.toNat + i) = false) →
      ∃ t, step s = .next t ∧ t = { s with pending := rest, mem := t.mem } ∧
        (∀ i b, bytes[i]? = some b → Memory.readByte t.mem (addr.toNat + i) = b) ∧
        ∀ a, ¬ (addr.toNat ≤ a ∧ a < addr.toNat + bytes.length) →
          Memory.readByte t.mem a = Memory.readByte s.mem a)

/-- A host load of an output byte while BUSY = 1 returns the byte's value from before START or its final
value, the one it has when the operation ends (R259); any other byte, and with BUSY = 0 every byte, is
memory's (R75); nothing of the engine changes. A load that reaches past the address space faults (entry
22). That a load reads its bytes in one step, asks no `MemOk`, and numbers its draws by `draws` is the
model's choice (entries 10, 23 and 24); `finalByte` is tied to the end of the operation by a statement of
its own. -/
def Obligations.HostLoadWhileBusySeesOldOrFinalByte : Prop :=
  ∀ (s : State) (addr : BitVec 32) (size : Nat) (rest : List Event),
    s.pending = .load addr size :: rest → touchesWindow s.platform addr.toNat size = false →
    (2 ^ 32 < addr.toNat + size → step s = .fault (.noSuchAddress addr size)) ∧
    (addr.toNat + size ≤ 2 ^ 32 →
      ∃ t, step s = .next t ∧ t.loadData.length = size ∧
        (∀ i b, t.loadData[i]? = some b →
          (s.busy = true → s.inOutput (addr.toNat + i) = true →
            b = Memory.readByte s.memAtStart (addr.toNat + i) ∨
            b = ({ s with pending := rest } : State).finalByte (addr.toNat + i)) ∧
          (s.busy = false ∨ s.inOutput (addr.toNat + i) = false →
            b = Memory.readByte s.mem (addr.toNat + i))) ∧
        t = { s with pending := rest, loadData := t.loadData, draws := s.draws + size })

/-- The final value that a host load of an output byte may see (R259) is the byte's value when the
operation ends, under every schedule of host events, whether it ends by completion, by BusError (R215)
or by reset (R251). How the schedule is held is the model's (entries 2 and 10). -/
def Obligations.FinalByteIsTheOneTheOperationEndsWith : Prop :=
  ∀ (s t : State) (n a : Nat), s.Inv → s.inOutput a = true →
    (∀ m, m < n → ∃ x : State, Sys2Proof.core.run m s = .next x ∧ x.busy = true) → 0 < n →
    Sys2Proof.core.run n s = .next t → t.busy = false →
    s.finalByte a = Memory.readByte t.mem a
end

