-- ==== Sys2Proof/Laws/Memory.lean ====
section
/-!
SUPPORT. The laws of memory: a read after a write, the bytes of little-endian accesses, and that every
write keeps the canonical form.
-/

namespace Sys2Proof.Machine

open Sys2Proof

/-! ### One byte -/

theorem Memory.wfFrom_mono {lo lo' : Nat} (h : lo' ≤ lo) :
    ∀ {m : Memory}, Memory.wfFrom lo m = true → Memory.wfFrom lo' m = true
  | [], _ => rfl
  | (a, b) :: m, hm => by
    simp only [Memory.wfFrom, Bool.and_eq_true, decide_eq_true_eq] at hm ⊢
    exact ⟨⟨⟨by omega, hm.1.1.2⟩, hm.1.2⟩, hm.2⟩

/-- Below its first address a canonical memory lists nothing. -/
theorem Memory.readByte_below {a : Nat} :
    ∀ {lo : Nat} {m : Memory}, Memory.wfFrom lo m = true → a < lo → m.readByte a = unlistedByte
  | _, [], _, _ => rfl
  | lo, (c, x) :: m, hm, h => by
    simp only [Memory.wfFrom, Bool.and_eq_true, decide_eq_true_eq] at hm
    rw [Memory.readByte, if_neg (by omega)]
    exact Memory.readByte_below hm.2 (by omega)

/-- A read after a write of one byte: the byte written, and every other address as before. -/
theorem Memory.readByte_writeByte {a : Nat} {b : Byte} (x : Nat) :
    ∀ {lo : Nat} {m : Memory}, Memory.wfFrom lo m = true →
      (m.writeByte a b).readByte x = if x = a then b else m.readByte x
  | _, [], _ => by
    simp only [Memory.writeByte]
    split <;> simp_all [Memory.readByte]
  | lo, (c, y) :: m, hm => by
    have hm' := hm
    simp only [Memory.wfFrom, Bool.and_eq_true, decide_eq_true_eq] at hm
    simp only [Memory.writeByte]
    split
    · next hac =>
      have hlow : Memory.readByte ((c, y) :: m) a = unlistedByte :=
        Memory.readByte_below (lo := c) (by simp_all [Memory.wfFrom]) hac
      split
      · next hb => split <;> simp_all
      · simp only [Memory.readByte]
    · split
      · next hac =>
        subst hac
        have hlow : Memory.readByte m a = unlistedByte := Memory.readByte_below hm.2 (by omega)
        split
        · next hb =>
          simp only [Memory.readByte]
          split <;> simp_all
        · simp only [Memory.readByte]
          split <;> simp_all
      · next hac hne =>
        simp only [Memory.readByte, Memory.readByte_writeByte x hm.2]
        split
        · next hx => rw [if_neg (by omega)]
        · rfl

/-- A write of one byte inside the address space keeps the canonical form. -/
theorem Memory.writeByte_wfFrom {a : Nat} {b : Byte} (ha : a < Config.addrSpace) :
    ∀ {lo : Nat} {m : Memory}, lo ≤ a → Memory.wfFrom lo m = true →
      Memory.wfFrom lo (m.writeByte a b) = true
  | lo, [], hlo, _ => by
    simp only [Memory.writeByte]
    split <;> simp_all [Memory.wfFrom]
  | lo, (c, y) :: m, hlo, hm => by
    have hm' := hm
    simp only [Memory.wfFrom, Bool.and_eq_true, decide_eq_true_eq, bne_iff_ne] at hm
    simp only [Memory.writeByte]
    split
    · split
      · exact hm'
      · simp_all [Memory.wfFrom]
    · split
      · split
        · exact Memory.wfFrom_mono (by omega) hm.2
        · simp_all [Memory.wfFrom]
      · have h := Memory.writeByte_wfFrom (b := b) ha (lo := c + 1) (by omega) hm.2
        simp_all [Memory.wfFrom]

theorem Memory.writeByte_wf {m : Memory} {a : Nat} {b : Byte} (ha : a < Config.addrSpace)
    (hm : m.wf = true) : (m.writeByte a b).wf = true :=
  Memory.writeByte_wfFrom ha (Nat.zero_le a) hm

/-! ### A run of bytes -/

/-- A write of a run of bytes inside the address space keeps the canonical form. -/
theorem Memory.writeBytes_wf :
    ∀ {bs : List Byte} {m : Memory} {a : Nat}, a + bs.length ≤ Config.addrSpace → m.wf = true →
      (m.writeBytes a bs).wf = true
  | [], _, _, _, hm => hm
  | b :: bs, m, a, ha, hm => by
    simp only [List.length_cons] at ha
    simp only [Memory.writeBytes]
    exact Memory.writeBytes_wf (by omega) (Memory.writeByte_wf (by omega) hm)

/-- A read after a write of a run of bytes: byte `x - a` of the run, every other byte as before. -/
theorem Memory.readByte_writeBytes (x : Nat) :
    ∀ {bs : List Byte} {m : Memory} {a : Nat}, a + bs.length ≤ Config.addrSpace → m.wf = true →
      (m.writeBytes a bs).readByte x =
        if a ≤ x then (bs[x - a]?).getD (m.readByte x) else m.readByte x
  | [], m, a, _, _ => by simp [Memory.writeBytes]
  | b :: bs, m, a, ha, hm => by
    simp only [List.length_cons] at ha
    simp only [Memory.writeBytes]
    rw [Memory.readByte_writeBytes x (by omega) (Memory.writeByte_wf (by omega) hm),
      Memory.readByte_writeByte x hm]
    rcases Nat.lt_trichotomy x a with h | rfl | h
    · simp [show ¬ a + 1 ≤ x by omega, show x ≠ a by omega, show ¬ a ≤ x by omega]
    · simp
    · simp [show a + 1 ≤ x by omega, show x ≠ a by omega, show a ≤ x by omega,
        show x - a = x - (a + 1) + 1 by omega]

/-! ### Little-endian accesses -/

/-- A write of `n` bytes inside the address space keeps the canonical form. -/
theorem Memory.writeLE_wf {w : Nat} :
    ∀ {n : Nat} {m : Memory} {a : Nat} {v : BitVec w}, a + n ≤ Config.addrSpace → m.wf = true →
      (m.writeLE a n v).wf = true
  | 0, _, _, _, _, hm => hm
  | n + 1, m, a, v, ha, hm => by
    simp only [Memory.writeLE]
    exact Memory.writeLE_wf (by omega) (Memory.writeByte_wf (by omega) hm)

/-- A read after a write of `n` bytes: bits [8i+7:8i] at `a + i`, every other byte as before (R9,
R63). -/
theorem Memory.readByte_writeLE {w : Nat} (x : Nat) :
    ∀ {n : Nat} {m : Memory} {a : Nat} {v : BitVec w}, a + n ≤ Config.addrSpace → m.wf = true →
      (m.writeLE a n v).readByte x =
        if a ≤ x ∧ x < a + n then v.extractLsb' (8 * (x - a)) 8 else m.readByte x
  | 0, m, a, v, _, _ => by
    simp only [Memory.writeLE]
    rw [if_neg (by omega)]
  | n + 1, m, a, v, ha, hm => by
    simp only [Memory.writeLE]
    rw [Memory.readByte_writeLE x (by omega) (Memory.writeByte_wf (by omega) hm),
      Memory.readByte_writeByte x hm]
    by_cases hx : x = a
    · subst hx
      rw [if_neg (by omega), if_pos rfl, if_pos (by omega)]
      ext i hi
      simp
    · by_cases hin : a + 1 ≤ x ∧ x < a + 1 + n
      · rw [if_pos hin, if_pos (by omega)]
        ext i hi
        simp only [BitVec.getElem_extractLsb', BitVec.getLsbD_ushiftRight]
        congr 1
        omega
      · rw [if_neg hin, if_neg hx, if_neg (by omega)]

/-- Byte `i` of a little-endian read is the byte at `a + i` (R9, R63). -/
theorem Memory.extract_readLE {m : Memory} :
    ∀ {n a i : Nat}, i < n → (m.readLE a n).extractLsb' (8 * i) 8 = m.readByte (a + i)
  | n + 1, a, 0, _ => by
    ext j hj
    simp [Memory.readLE, BitVec.getLsbD_append, hj]
  | n + 1, a, i + 1, h => by
    have ih := Memory.extract_readLE (m := m) (n := n) (a := a + 1) (i := i) (by omega)
    rw [show a + (i + 1) = a + 1 + i by omega, ← ih]
    ext j hj
    simp only [Memory.readLE, BitVec.getElem_extractLsb']
    rw [BitVec.getLsbD_append, if_neg (by omega)]
    congr 1
    omega

/-- Two reads agree where the bytes agree. -/
theorem Memory.readLE_congr {m m' : Memory} :
    ∀ {n a : Nat}, (∀ i, i < n → m.readByte (a + i) = m'.readByte (a + i)) →
      m.readLE a n = m'.readLE a n
  | 0, _, _ => rfl
  | n + 1, a, h => by
    have h0 := h 0 (by omega)
    have ih := Memory.readLE_congr (m := m) (m' := m') (n := n) (a := a + 1) (fun i hi => by
      have := h (i + 1) (by omega)
      rwa [show a + (i + 1) = a + 1 + i by omega] at this)
    rw [Nat.add_zero] at h0
    simp only [Memory.readLE, ih, h0]

end Sys2Proof.Machine
end

