-- ==== Sys2Proof/Laws/State.lean ====
section
/-!
SUPPORT. One lemma per field per update of the state, each true by rfl, so that no proof unfolds a record
update.
-/

namespace Sys2Proof.Machine

open Sys2Proof

/-! ### `respond`: the port's answer to a read -/

@[simp] theorem respond_platform (s : State) (w : Word) : (s.respond w).platform = s.platform := rfl
@[simp] theorem respond_ctrlIE (s : State) (w : Word) : (s.respond w).ctrlIE = s.ctrlIE := rfl
@[simp] theorem respond_phase (s : State) (w : Word) : (s.respond w).phase = s.phase := rfl
@[simp] theorem respond_done (s : State) (w : Word) : (s.respond w).done = s.done := rfl
@[simp] theorem respond_err (s : State) (w : Word) : (s.respond w).err = s.err := rfl
@[simp] theorem respond_ignw (s : State) (w : Word) : (s.respond w).ignw = s.ignw := rfl
@[simp] theorem respond_errcode (s : State) (w : Word) : (s.respond w).errcode = s.errcode := rfl
@[simp] theorem respond_lastVar (s : State) (w : Word) : (s.respond w).lastVar = s.lastVar := rfl
@[simp] theorem respond_src (s : State) (w : Word) : (s.respond w).src = s.src := rfl
@[simp] theorem respond_dst (s : State) (w : Word) : (s.respond w).dst = s.dst := rfl
@[simp] theorem respond_width (s : State) (w : Word) : (s.respond w).width = s.width := rfl
@[simp] theorem respond_height (s : State) (w : Word) : (s.respond w).height = s.height := rfl
@[simp] theorem respond_dstLen (s : State) (w : Word) : (s.respond w).dstLen = s.dstLen := rfl
@[simp] theorem respond_progress (s : State) (w : Word) : (s.respond w).progress = s.progress := rfl
@[simp] theorem respond_faultAddr (s : State) (w : Word) : (s.respond w).faultAddr = s.faultAddr := rfl
@[simp] theorem respond_mem (s : State) (w : Word) : (s.respond w).mem = s.mem := rfl
@[simp] theorem respond_memAtStart (s : State) (w : Word) : (s.respond w).memAtStart = s.memAtStart := rfl
@[simp] theorem respond_pending (s : State) (w : Word) : (s.respond w).pending = s.pending := rfl
@[simp] theorem respond_readData (s : State) (w : Word) : (s.respond w).readData = w := rfl
@[simp] theorem respond_loadData (s : State) (w : Word) : (s.respond w).loadData = s.loadData := rfl
@[simp] theorem respond_draws (s : State) (w : Word) : (s.respond w).draws = s.draws := rfl

/-! ### `ignoreWrite`: an ignored write -/

@[simp] theorem ignoreWrite_platform (s : State) : s.ignoreWrite.platform = s.platform := rfl
@[simp] theorem ignoreWrite_ctrlIE (s : State) : s.ignoreWrite.ctrlIE = s.ctrlIE := rfl
@[simp] theorem ignoreWrite_phase (s : State) : s.ignoreWrite.phase = s.phase := rfl
@[simp] theorem ignoreWrite_done (s : State) : s.ignoreWrite.done = s.done := rfl
@[simp] theorem ignoreWrite_err (s : State) : s.ignoreWrite.err = s.err := rfl
@[simp] theorem ignoreWrite_ignw (s : State) : s.ignoreWrite.ignw = true := rfl
@[simp] theorem ignoreWrite_errcode (s : State) : s.ignoreWrite.errcode = s.errcode := rfl
@[simp] theorem ignoreWrite_lastVar (s : State) : s.ignoreWrite.lastVar = s.lastVar := rfl
@[simp] theorem ignoreWrite_src (s : State) : s.ignoreWrite.src = s.src := rfl
@[simp] theorem ignoreWrite_dst (s : State) : s.ignoreWrite.dst = s.dst := rfl
@[simp] theorem ignoreWrite_width (s : State) : s.ignoreWrite.width = s.width := rfl
@[simp] theorem ignoreWrite_height (s : State) : s.ignoreWrite.height = s.height := rfl
@[simp] theorem ignoreWrite_dstLen (s : State) : s.ignoreWrite.dstLen = s.dstLen := rfl
@[simp] theorem ignoreWrite_progress (s : State) : s.ignoreWrite.progress = s.progress := rfl
@[simp] theorem ignoreWrite_faultAddr (s : State) : s.ignoreWrite.faultAddr = s.faultAddr := rfl
@[simp] theorem ignoreWrite_mem (s : State) : s.ignoreWrite.mem = s.mem := rfl
@[simp] theorem ignoreWrite_memAtStart (s : State) : s.ignoreWrite.memAtStart = s.memAtStart := rfl
@[simp] theorem ignoreWrite_pending (s : State) : s.ignoreWrite.pending = s.pending := rfl
@[simp] theorem ignoreWrite_readData (s : State) : s.ignoreWrite.readData = s.readData := rfl
@[simp] theorem ignoreWrite_loadData (s : State) : s.ignoreWrite.loadData = s.loadData := rfl
@[simp] theorem ignoreWrite_draws (s : State) : s.ignoreWrite.draws = s.draws := rfl

/-! ### `raiseError`: error entry -/

@[simp] theorem raiseError_platform (s : State) (e : EngineError) : (s.raiseError e).platform = s.platform := rfl
@[simp] theorem raiseError_ctrlIE (s : State) (e : EngineError) : (s.raiseError e).ctrlIE = s.ctrlIE := rfl
@[simp] theorem raiseError_phase (s : State) (e : EngineError) : (s.raiseError e).phase = .idle := rfl
@[simp] theorem raiseError_done (s : State) (e : EngineError) : (s.raiseError e).done = false := rfl
@[simp] theorem raiseError_err (s : State) (e : EngineError) : (s.raiseError e).err = true := rfl
@[simp] theorem raiseError_ignw (s : State) (e : EngineError) : (s.raiseError e).ignw = s.ignw := rfl
@[simp] theorem raiseError_errcode (s : State) (e : EngineError) : (s.raiseError e).errcode = some e := rfl
@[simp] theorem raiseError_lastVar (s : State) (e : EngineError) : (s.raiseError e).lastVar = s.lastVar := rfl
@[simp] theorem raiseError_src (s : State) (e : EngineError) : (s.raiseError e).src = s.src := rfl
@[simp] theorem raiseError_dst (s : State) (e : EngineError) : (s.raiseError e).dst = s.dst := rfl
@[simp] theorem raiseError_width (s : State) (e : EngineError) : (s.raiseError e).width = s.width := rfl
@[simp] theorem raiseError_height (s : State) (e : EngineError) : (s.raiseError e).height = s.height := rfl
@[simp] theorem raiseError_dstLen (s : State) (e : EngineError) : (s.raiseError e).dstLen = s.dstLen := rfl
@[simp] theorem raiseError_progress (s : State) (e : EngineError) : (s.raiseError e).progress = s.progress := rfl
@[simp] theorem raiseError_faultAddr (s : State) (e : EngineError) : (s.raiseError e).faultAddr = s.faultAddr := rfl
@[simp] theorem raiseError_mem (s : State) (e : EngineError) : (s.raiseError e).mem = s.mem := rfl
@[simp] theorem raiseError_memAtStart (s : State) (e : EngineError) : (s.raiseError e).memAtStart = s.memAtStart := rfl
@[simp] theorem raiseError_pending (s : State) (e : EngineError) : (s.raiseError e).pending = s.pending := rfl
@[simp] theorem raiseError_readData (s : State) (e : EngineError) : (s.raiseError e).readData = s.readData := rfl
@[simp] theorem raiseError_loadData (s : State) (e : EngineError) : (s.raiseError e).loadData = s.loadData := rfl
@[simp] theorem raiseError_draws (s : State) (e : EngineError) : (s.raiseError e).draws = s.draws := rfl

/-! ### `busError`: BusError -/

@[simp] theorem busError_platform (s : State) (a : Nat) : (s.busError a).platform = s.platform := rfl
@[simp] theorem busError_ctrlIE (s : State) (a : Nat) : (s.busError a).ctrlIE = s.ctrlIE := rfl
@[simp] theorem busError_phase (s : State) (a : Nat) : (s.busError a).phase = .idle := rfl
@[simp] theorem busError_done (s : State) (a : Nat) : (s.busError a).done = false := rfl
@[simp] theorem busError_err (s : State) (a : Nat) : (s.busError a).err = true := rfl
@[simp] theorem busError_ignw (s : State) (a : Nat) : (s.busError a).ignw = s.ignw := rfl
@[simp] theorem busError_errcode (s : State) (a : Nat) : (s.busError a).errcode = some .busError := rfl
@[simp] theorem busError_lastVar (s : State) (a : Nat) : (s.busError a).lastVar = s.lastVar := rfl
@[simp] theorem busError_src (s : State) (a : Nat) : (s.busError a).src = s.src := rfl
@[simp] theorem busError_dst (s : State) (a : Nat) : (s.busError a).dst = s.dst := rfl
@[simp] theorem busError_width (s : State) (a : Nat) : (s.busError a).width = s.width := rfl
@[simp] theorem busError_height (s : State) (a : Nat) : (s.busError a).height = s.height := rfl
@[simp] theorem busError_dstLen (s : State) (a : Nat) : (s.busError a).dstLen = s.dstLen := rfl
@[simp] theorem busError_progress (s : State) (a : Nat) : (s.busError a).progress = s.progress := rfl
@[simp] theorem busError_faultAddr (s : State) (a : Nat) : (s.busError a).faultAddr = BitVec.ofNat 32 a := rfl
@[simp] theorem busError_mem (s : State) (a : Nat) : (s.busError a).mem = s.mem := rfl
@[simp] theorem busError_memAtStart (s : State) (a : Nat) : (s.busError a).memAtStart = s.memAtStart := rfl
@[simp] theorem busError_pending (s : State) (a : Nat) : (s.busError a).pending = s.pending := rfl
@[simp] theorem busError_readData (s : State) (a : Nat) : (s.busError a).readData = s.readData := rfl
@[simp] theorem busError_loadData (s : State) (a : Nat) : (s.busError a).loadData = s.loadData := rfl
@[simp] theorem busError_draws (s : State) (a : Nat) : (s.busError a).draws = s.draws := rfl

/-! ### `clearStatus`: CLEAR -/

@[simp] theorem clearStatus_platform (s : State) : s.clearStatus.platform = s.platform := rfl
@[simp] theorem clearStatus_ctrlIE (s : State) : s.clearStatus.ctrlIE = s.ctrlIE := rfl
@[simp] theorem clearStatus_phase (s : State) : s.clearStatus.phase = s.phase := rfl
@[simp] theorem clearStatus_done (s : State) : s.clearStatus.done = false := rfl
@[simp] theorem clearStatus_err (s : State) : s.clearStatus.err = false := rfl
@[simp] theorem clearStatus_ignw (s : State) : s.clearStatus.ignw = false := rfl
@[simp] theorem clearStatus_errcode (s : State) : s.clearStatus.errcode = none := rfl
@[simp] theorem clearStatus_lastVar (s : State) : s.clearStatus.lastVar = s.lastVar := rfl
@[simp] theorem clearStatus_src (s : State) : s.clearStatus.src = s.src := rfl
@[simp] theorem clearStatus_dst (s : State) : s.clearStatus.dst = s.dst := rfl
@[simp] theorem clearStatus_width (s : State) : s.clearStatus.width = s.width := rfl
@[simp] theorem clearStatus_height (s : State) : s.clearStatus.height = s.height := rfl
@[simp] theorem clearStatus_dstLen (s : State) : s.clearStatus.dstLen = s.dstLen := rfl
@[simp] theorem clearStatus_progress (s : State) : s.clearStatus.progress = s.progress := rfl
@[simp] theorem clearStatus_faultAddr (s : State) : s.clearStatus.faultAddr = s.faultAddr := rfl
@[simp] theorem clearStatus_mem (s : State) : s.clearStatus.mem = s.mem := rfl
@[simp] theorem clearStatus_memAtStart (s : State) : s.clearStatus.memAtStart = s.memAtStart := rfl
@[simp] theorem clearStatus_pending (s : State) : s.clearStatus.pending = s.pending := rfl
@[simp] theorem clearStatus_readData (s : State) : s.clearStatus.readData = s.readData := rfl
@[simp] theorem clearStatus_loadData (s : State) : s.clearStatus.loadData = s.loadData := rfl
@[simp] theorem clearStatus_draws (s : State) : s.clearStatus.draws = s.draws := rfl

/-! ### `beginStart`: the first writes of START -/

@[simp] theorem beginStart_platform (s : State) (v : Variant) : (s.beginStart v).platform = s.platform := rfl
@[simp] theorem beginStart_ctrlIE (s : State) (v : Variant) : (s.beginStart v).ctrlIE = s.ctrlIE := rfl
@[simp] theorem beginStart_phase (s : State) (v : Variant) : (s.beginStart v).phase = s.phase := rfl
@[simp] theorem beginStart_done (s : State) (v : Variant) : (s.beginStart v).done = s.done := rfl
@[simp] theorem beginStart_err (s : State) (v : Variant) : (s.beginStart v).err = s.err := rfl
@[simp] theorem beginStart_ignw (s : State) (v : Variant) : (s.beginStart v).ignw = s.ignw := rfl
@[simp] theorem beginStart_errcode (s : State) (v : Variant) : (s.beginStart v).errcode = s.errcode := rfl
@[simp] theorem beginStart_lastVar (s : State) (v : Variant) : (s.beginStart v).lastVar = v := rfl
@[simp] theorem beginStart_src (s : State) (v : Variant) : (s.beginStart v).src = s.src := rfl
@[simp] theorem beginStart_dst (s : State) (v : Variant) : (s.beginStart v).dst = s.dst := rfl
@[simp] theorem beginStart_width (s : State) (v : Variant) : (s.beginStart v).width = s.width := rfl
@[simp] theorem beginStart_height (s : State) (v : Variant) : (s.beginStart v).height = s.height := rfl
@[simp] theorem beginStart_dstLen (s : State) (v : Variant) : (s.beginStart v).dstLen = s.dstLen := rfl
@[simp] theorem beginStart_progress (s : State) (v : Variant) : (s.beginStart v).progress = 0#32 := rfl
@[simp] theorem beginStart_faultAddr (s : State) (v : Variant) : (s.beginStart v).faultAddr = 0#32 := rfl
@[simp] theorem beginStart_mem (s : State) (v : Variant) : (s.beginStart v).mem = s.mem := rfl
@[simp] theorem beginStart_memAtStart (s : State) (v : Variant) : (s.beginStart v).memAtStart = s.memAtStart := rfl
@[simp] theorem beginStart_pending (s : State) (v : Variant) : (s.beginStart v).pending = s.pending := rfl
@[simp] theorem beginStart_readData (s : State) (v : Variant) : (s.beginStart v).readData = s.readData := rfl
@[simp] theorem beginStart_loadData (s : State) (v : Variant) : (s.beginStart v).loadData = s.loadData := rfl
@[simp] theorem beginStart_draws (s : State) (v : Variant) : (s.beginStart v).draws = s.draws := rfl

/-! ### `resetEngine`: the reset input -/

@[simp] theorem resetEngine_platform (s : State) : s.resetEngine.platform = s.platform := rfl
@[simp] theorem resetEngine_ctrlIE (s : State) : s.resetEngine.ctrlIE = false := rfl
@[simp] theorem resetEngine_phase (s : State) : s.resetEngine.phase = .idle := rfl
@[simp] theorem resetEngine_done (s : State) : s.resetEngine.done = false := rfl
@[simp] theorem resetEngine_err (s : State) : s.resetEngine.err = false := rfl
@[simp] theorem resetEngine_ignw (s : State) : s.resetEngine.ignw = false := rfl
@[simp] theorem resetEngine_errcode (s : State) : s.resetEngine.errcode = none := rfl
@[simp] theorem resetEngine_lastVar (s : State) : s.resetEngine.lastVar = .scalar := rfl
@[simp] theorem resetEngine_src (s : State) : s.resetEngine.src = 0#32 := rfl
@[simp] theorem resetEngine_dst (s : State) : s.resetEngine.dst = 0#32 := rfl
@[simp] theorem resetEngine_width (s : State) : s.resetEngine.width = 0#32 := rfl
@[simp] theorem resetEngine_height (s : State) : s.resetEngine.height = 0#32 := rfl
@[simp] theorem resetEngine_dstLen (s : State) : s.resetEngine.dstLen = 0#32 := rfl
@[simp] theorem resetEngine_progress (s : State) : s.resetEngine.progress = 0#32 := rfl
@[simp] theorem resetEngine_faultAddr (s : State) : s.resetEngine.faultAddr = 0#32 := rfl
@[simp] theorem resetEngine_mem (s : State) : s.resetEngine.mem = s.mem := rfl
@[simp] theorem resetEngine_memAtStart (s : State) : s.resetEngine.memAtStart = s.memAtStart := rfl
@[simp] theorem resetEngine_pending (s : State) : s.resetEngine.pending = s.pending := rfl
@[simp] theorem resetEngine_readData (s : State) : s.resetEngine.readData = s.readData := rfl
@[simp] theorem resetEngine_loadData (s : State) : s.resetEngine.loadData = s.loadData := rfl
@[simp] theorem resetEngine_draws (s : State) : s.resetEngine.draws = s.draws := rfl

/-! ### `busy` through the updates -/

@[simp] theorem busy_idle {s : State} (h : s.phase = .idle) : s.busy = false := by
  simp [State.busy, h]

@[simp] theorem busy_run {s : State} {y k : Nat} (h : s.phase = .run y k) : s.busy = true := by
  simp [State.busy, h]

theorem busy_eq_true_iff {s : State} : s.busy = true ↔ ∃ y k, s.phase = .run y k := by
  cases h : s.phase with
  | idle => simp [State.busy, h]
  | run y k => simp [State.busy, h]

theorem busy_eq_false_iff {s : State} : s.busy = false ↔ s.phase = .idle := by
  cases h : s.phase with
  | idle => simp [State.busy, h]
  | run y k => simp [State.busy, h]

@[simp] theorem respond_busy (s : State) (w : Word) : (s.respond w).busy = s.busy := rfl
@[simp] theorem ignoreWrite_busy (s : State) : s.ignoreWrite.busy = s.busy := rfl
@[simp] theorem raiseError_busy (s : State) (e : EngineError) : (s.raiseError e).busy = false := rfl
@[simp] theorem busError_busy (s : State) (a : Nat) : (s.busError a).busy = false := rfl
@[simp] theorem clearStatus_busy (s : State) : s.clearStatus.busy = s.busy := rfl
@[simp] theorem beginStart_busy (s : State) (v : Variant) : (s.beginStart v).busy = s.busy := rfl
@[simp] theorem resetEngine_busy (s : State) : s.resetEngine.busy = false := rfl

end Sys2Proof.Machine
end

