-- ==== Sys2Proof/Laws/Ops.lean ====
section
/-!
SUPPORT. One lemma for each shared operation that says once everything it can do; later proofs cite these
instead of unfolding the operation.
-/

namespace Sys2Proof.Machine

open Sys2Proof

/-! ### The memory port -/

theorem memRead_eq_ok_iff {s : State} {a n : Nat} {x : BitVec (8 * n)} :
    s.memRead a n = .ok x ↔ memOk s.platform a n = true ∧ x = s.mem.readLE a n := by
  unfold State.memRead
  split
  · next h => simpa [h] using eq_comm
  · next h => simp [h]

theorem memRead_eq_error_iff {s : State} {a n e : Nat} :
    s.memRead a n = .error e ↔ memOk s.platform a n = false ∧ e = a := by
  unfold State.memRead
  split
  · next h => simp [h]
  · next h => simpa [h] using eq_comm

theorem memWrite_eq_ok_iff {w : Nat} {s t : State} {a n : Nat} {x : BitVec w} :
    s.memWrite a n x = .ok t ↔
      memOk s.platform a n = true ∧ t = { s with mem := s.mem.writeLE a n x } := by
  unfold State.memWrite
  split
  · next h => simpa [h] using eq_comm
  · next h => simp [h]

theorem memWrite_eq_error_iff {w : Nat} {s : State} {a n e : Nat} {x : BitVec w} :
    s.memWrite a n x = .error e ↔ memOk s.platform a n = false ∧ e = a := by
  unfold State.memWrite
  split
  · next h => simp [h]
  · next h => simpa [h] using eq_comm

/-- Two ranges meet exactly where some byte is in both. -/
theorem rangesMeet_iff {a n base size : Nat} :
    rangesMeet a n base size = true ↔ ∃ b, (a ≤ b ∧ b < a + n) ∧ base ≤ b ∧ b < base + size := by
  simp only [rangesMeet, decide_eq_true_eq]
  exact ⟨fun h => ⟨max a base, by omega⟩, fun ⟨b, h⟩ => by omega⟩

/-- An admitted access lies in the address space and has no byte in the register window. -/
theorem memOk_bounds {p : Config.Platform} {a n : Nat} (h : memOk p a n = true) :
    a + n ≤ Config.addrSpace ∧
    ∀ b, a ≤ b → b < a + n → ¬ (p.engineBase ≤ b ∧ b < p.engineBase + Config.windowSize) := by
  simp only [memOk, rangesMeet, Bool.and_eq_true, Bool.not_eq_true', decide_eq_true_eq,
    decide_eq_false_iff_not] at h
  exact ⟨h.1.1, fun b => by omega⟩

/-! ### The busy-lock and START -/

/-- The busy-lock: the effect while BUSY = 0, only IGNW while BUSY = 1. -/
theorem unlessBusy_cases (s t : State) :
    (s.busy = false ∧ s.unlessBusy t = t) ∨ (s.busy = true ∧ s.unlessBusy t = s.ignoreWrite) := by
  unfold State.unlessBusy
  cases s.busy <;> simp

theorem unlessBusy_idle {s : State} (t : State) (h : s.busy = false) : s.unlessBusy t = t := by
  simp [State.unlessBusy, h]

theorem unlessBusy_busy {s : State} (t : State) (h : s.busy = true) :
    s.unlessBusy t = s.ignoreWrite := by
  simp [State.unlessBusy, h]

/-- The checks of R126 all pass exactly where START is accepted. -/
theorem startCheck_eq_none_iff {v : Variant} {s : State} :
    startCheck v s = none ↔ startAccepted v s := by
  unfold startAccepted
  by_cases h1 : badVariant v s
  · simp only [h1, not_true, false_and, iff_false]
    rw [startCheck, if_pos (show v = .v128 ∧ s.platform.hasV128 = false from h1)]
    simp
  by_cases h2 : badDimensions v s
  · have h2' : s.opW % 2 ≠ 0 ∨ s.opH % 2 ≠ 0 ∨ s.opW % granularity v ≠ 0 := by
      simp only [badDimensions, Nat.dvd_iff_mod_eq_zero] at h2
      simp only [State.opW, State.opH]
      omega
    simp only [h2, not_true, false_and, and_false, iff_false]
    rw [startCheck, if_neg (show ¬ (v = .v128 ∧ s.platform.hasV128 = false) from h1), if_pos h2']
    simp
  have h2' : ¬ (s.opW % 2 ≠ 0 ∨ s.opH % 2 ≠ 0 ∨ s.opW % granularity v ≠ 0) := by
    simp only [badDimensions, Nat.dvd_iff_mod_eq_zero] at h2
    simp only [State.opW, State.opH]
    omega
  have h4 : badAlignment v s ↔ s.opS % alignment v ≠ 0 ∨ s.opD % alignment v ≠ 0 := by
    simp only [badAlignment, Nat.dvd_iff_mod_eq_zero, State.opS, State.opD, ne_eq]
  unfold startCheck
  rw [if_neg (show ¬ (v = .v128 ∧ s.platform.hasV128 = false) from h1), if_neg h2', h4,
    show badLength s ↔ s.opL < s.opN from Iff.rfl,
    show badRange s ↔ s.opS + s.opW * s.opH > Config.addrSpace ∨ s.opD + s.opN > Config.addrSpace
      from Iff.rfl,
    show badOverlap s ↔ 0 < s.opN ∧ s.opS < s.opD + s.opN ∧ s.opD < s.opS + s.opW * s.opH
      from Iff.rfl]
  repeat' split
  all_goals simp_all

/-- START while BUSY = 0 refuses with the first failing check, is done at once where N = 0, or enters
RUN at cursor (0, 0). -/
theorem startOperation_cases (s : State) (v : Variant) :
    (∃ e, startCheck v s = some e ∧ s.startOperation v = (s.beginStart v).raiseError e) ∨
    (startCheck v s = none ∧ s.opN = 0 ∧ s.startOperation v =
      { s.beginStart v with done := true, err := false, errcode := none }) ∨
    (startCheck v s = none ∧ 0 < s.opN ∧ s.startOperation v =
      { s.beginStart v with
        done := false, err := false, errcode := none, phase := .run 0 0, memAtStart := s.mem }) := by
  unfold State.startOperation
  cases h : startCheck v s with
  | some e => exact .inl ⟨e, rfl, rfl⟩
  | none =>
    have hN : (s.beginStart v).opN = s.opN := rfl
    by_cases h0 : s.opN = 0
    · exact .inr (.inl ⟨rfl, h0, by simp [State.acceptStart, hN, h0]⟩)
    · exact .inr (.inr ⟨rfl, by omega, by simp [State.acceptStart, hN, h0]⟩)

/-! ### The engine step -/

/-- The value that the step of a variant writes, from the memory it reads (R150, R170, R172, R174,
R196). -/
def stepOutput (m : Memory) : (v : Variant) → (top bot : Nat) → BitVec (8 * outBytes v)
  | .scalar, top, bot =>
    scalarAverage (m.readLE top 1) (m.readLE (top + 1) 1) (m.readLE bot 1) (m.readLE (bot + 1) 1)
  | .p32, top, bot => avg32 (m.readLE top 4) (m.readLE bot 4)
  | .p32x2, top, bot =>
    combine32x2 (avg32 (m.readLE top 4) (m.readLE bot 4))
      (avg32 (m.readLE (top + 4) 4) (m.readLE (bot + 4) 4))
  | .p64, top, bot => avg64 (m.readLE top 8) (m.readLE bot 8)
  | .v128, top, bot =>
    narrow (vAvg (m.readLE top 16) (m.readLE bot 16))
      (vAvg (m.readLE (top + 16) 16) (m.readLE (bot + 16) 16))

/-- The first of the accesses that the memory port does not admit. -/
def firstRefused (p : Config.Platform) : List (Nat × Nat) → Option Nat
  | [] => none
  | (a, n) :: l => if memOk p a n then firstRefused p l else some a

theorem firstRefused_eq_none_iff {p : Config.Platform} :
    ∀ {l : List (Nat × Nat)}, firstRefused p l = none ↔ ∀ q ∈ l, memOk p q.1 q.2 = true
  | [] => by simp [firstRefused]
  | (a, n) :: l => by
    unfold firstRefused
    split <;> simp_all [firstRefused_eq_none_iff (l := l)]

/-- Everything the step of a variant can do: BusError at its first refused access, or the one write of
its output value. -/
theorem stepVariant_eq (s : State) (v : Variant) (top bot dst : Nat) :
    s.stepVariant v top bot dst =
      match firstRefused s.platform (stepAccesses v top bot dst) with
      | some a => .error a
      | none => .ok { s with mem := s.mem.writeLE dst (outBytes v) (stepOutput s.mem v top bot) } := by
  cases v with
  | scalar =>
    simp only [State.stepVariant, State.stepScalar, stepAccesses, firstRefused, State.memRead,
      State.memWrite, bind, Except.bind]
    cases memOk s.platform top 1 <;> cases memOk s.platform (top + 1) 1 <;>
      cases memOk s.platform bot 1 <;> cases memOk s.platform (bot + 1) 1 <;>
      cases memOk s.platform dst 1 <;> rfl
  | p32 =>
    simp only [State.stepVariant, State.stepP32, stepAccesses, firstRefused, State.memRead,
      State.memWrite, bind, Except.bind]
    cases memOk s.platform top 4 <;> cases memOk s.platform bot 4 <;>
      cases memOk s.platform dst 2 <;> rfl
  | p32x2 =>
    simp only [State.stepVariant, State.stepP32x2, stepAccesses, firstRefused, State.memRead,
      State.memWrite, bind, Except.bind]
    cases memOk s.platform top 4 <;> cases memOk s.platform (top + 4) 4 <;>
      cases memOk s.platform bot 4 <;> cases memOk s.platform (bot + 4) 4 <;>
      cases memOk s.platform dst 4 <;> rfl
  | p64 =>
    simp only [State.stepVariant, State.stepP64, stepAccesses, firstRefused, State.memRead,
      State.memWrite, bind, Except.bind]
    cases memOk s.platform top 8 <;> cases memOk s.platform bot 8 <;>
      cases memOk s.platform dst 4 <;> rfl
  | v128 =>
    simp only [State.stepVariant, State.stepV128, stepAccesses, firstRefused, State.memRead,
      State.memWrite, bind, Except.bind]
    cases memOk s.platform top 16 <;> cases memOk s.platform (top + 16) 16 <;>
      cases memOk s.platform bot 16 <;> cases memOk s.platform (bot + 16) 16 <;>
      cases memOk s.platform dst 16 <;> rfl

/-- The end of a completed step: the operation is done, or the cursor advances. -/
theorem advance_cases (s : State) (v : Variant) (y k : Nat) :
    (s.nextRow v y k = s.opH / 2 ∧ s.advance v y k =
      { s with progress := s.progress + BitVec.ofNat 32 (outBytes v), phase := .idle, done := true }) ∨
    (s.nextRow v y k ≠ s.opH / 2 ∧ s.advance v y k =
      { s with progress := s.progress + BitVec.ofNat 32 (outBytes v),
               phase := .run (s.nextRow v y k) (s.nextGroup v k) }) := by
  unfold State.advance
  by_cases h : s.nextRow v y k = s.opH / 2
  · exact .inl ⟨h, by simp [State.nextRow, State.opW, State.opH] at h ⊢; simp [h]⟩
  · exact .inr ⟨h, by simp [State.nextRow, State.nextGroup, State.opW, State.opH] at h ⊢; simp [h]⟩

/-- Everything an engine step can do: BusError at the first refused access, or the output bytes written
and the operation advanced. -/
theorem engineStep_cases (s : State) (y k : Nat) :
    (∃ a, firstRefused s.platform (s.cursorAccesses y k) = some a ∧ s.engineStep y k = s.busError a) ∨
    (s.stepAdmitted y k ∧ s.engineStep y k =
      { s with
        mem := Memory.writeLE s.mem (s.dstAddr s.lastVar y k) (outBytes s.lastVar)
          (stepOutput s.mem s.lastVar (s.topAddr s.lastVar y k) (s.botAddr s.lastVar y k))
        }.advance s.lastVar y k) := by
  unfold State.engineStep
  simp only [stepVariant_eq]
  cases h : firstRefused s.platform (s.cursorAccesses y k) with
  | some a =>
    refine .inl ⟨a, rfl, ?_⟩
    unfold State.cursorAccesses at h
    simp only [h]
  | none =>
    refine .inr ⟨firstRefused_eq_none_iff.mp h, ?_⟩
    unfold State.cursorAccesses at h
    simp only [h]

/-- The engine's turn: nothing in IDLE, its step in RUN. -/
theorem engineTurn_cases (s : State) :
    (s.phase = .idle ∧ s.engineTurn = s) ∨
    (∃ y k, s.phase = .run y k ∧ s.engineTurn = s.engineStep y k) := by
  unfold State.engineTurn
  cases h : s.phase with
  | idle => exact .inl ⟨rfl, rfl⟩
  | run y k => exact .inr ⟨y, k, rfl, rfl⟩

/-! ### From a host address to a request -/

/-- KEY as a number: DIR·2^12 + OFF (R92). -/
theorem mmioKey_toNat (w : Bool) (off : BitVec 12) :
    (mmioKey w off).toNat = (if w then 0x1000 else 0) + off.toNat := by
  have h := off.isLt
  unfold mmioKey
  rw [BitVec.toNat_append, Nat.shiftLeft_eq, Nat.mul_comm, ← Nat.two_pow_add_eq_or_of_lt h]
  cases w <;> simp

/-- The address ENGINE_BASE + OFF has the offset OFF (R91). -/
theorem windowOffset_eq {base : Nat} {addr : BitVec 32} {off : BitVec 12}
    (h : addr.toNat = base + off.toNat) : windowOffset base addr = off := by
  apply BitVec.eq_of_toNat_eq
  have ha := addr.isLt
  have ho := off.isLt
  simp only [windowOffset, BitVec.extractLsb'_toNat, BitVec.toNat_sub, BitVec.toNat_ofNat, h,
    Nat.shiftRight_zero]
  omega

/-- An access at ENGINE_BASE + OFF touches the window, whatever its size. -/
theorem touchesWindow_of_offset {p : Config.Platform} {a : Nat} (n : Nat) {off : BitVec 12}
    (h : a = p.engineBase + off.toNat) : touchesWindow p a n = true := by
  have ho := off.isLt
  exact rangesMeet_iff.mpr ⟨a, by omega, by simp only [Config.windowSize]; omega⟩

/-- A word survives the way through its bytes. -/
theorem bytesWord_wordBytes (w : Word) : bytesWord (wordBytes w) = w := by
  apply BitVec.eq_of_toNat_eq
  have h := w.isLt
  have e (x : BitVec 32) (b : BitVec 8) :
      (x <<< 8 ||| b.setWidth 32).toNat = (x.toNat * 256) % 2 ^ 32 + b.toNat := by
    have hb := b.isLt
    rw [BitVec.toNat_or, BitVec.toNat_shiftLeft, BitVec.toNat_setWidth,
      Nat.mod_eq_of_lt (a := b.toNat) (by omega), Nat.shiftLeft_eq,
      show x.toNat * 2 ^ 8 % 2 ^ 32 = 2 ^ 8 * (x.toNat % 2 ^ 24) by omega,
      ← Nat.two_pow_add_eq_or_of_lt hb]
    omega
  simp only [wordBytes, bytesWord, e, BitVec.extractLsb'_toNat, Nat.shiftRight_eq_div_pow,
    BitVec.toNat_ofNat]
  omega

/-! ### Host events and the step -/

/-- Everything a host store can do that leads on: its bytes in memory, none of them in a running
operation's buffers. -/
theorem hostStore_eq_next_iff {s t : State} {addr : BitVec 32} {bytes : List Byte} :
    s.hostStore addr bytes = .next t ↔
      addr.toNat + bytes.length ≤ Config.addrSpace ∧
      ¬ (s.busy = true ∧ ∃ i, i < bytes.length ∧
        (s.inInput (addr.toNat + i) = true ∨ s.inOutput (addr.toNat + i) = true)) ∧
      t = { s with mem := s.mem.writeBytes addr.toNat bytes } := by
  unfold State.hostStore
  by_cases h : Config.addrSpace < addr.toNat + bytes.length
  · rw [if_pos h]
    simp only [reduceCtorEq, false_iff, not_and]
    omega
  · rw [if_neg h]
    by_cases hb : s.busy = true ∧ ∃ i, i < bytes.length ∧
        (s.inInput (addr.toNat + i) = true ∨ s.inOutput (addr.toNat + i) = true)
    · rw [if_pos (by simpa using hb)]
      simp [hb]
    · rw [if_neg (by simpa using hb)]
      simp only [Host.Outcome.next.injEq, hb, not_false_eq_true, true_and]
      exact ⟨fun e => ⟨by omega, e.symm⟩, fun e => e.2.symm⟩

/-- One byte of a host load: memory's, or one of the two values of R259. -/
theorem loadByte_cases (s : State) (n a : Nat) :
    (¬ (s.busy = true ∧ s.inOutput a = true) ∧ s.loadByte n a = s.mem.readByte a) ∨
    (s.busy = true ∧ s.inOutput a = true ∧
      (s.loadByte n a = s.memAtStart.readByte a ∨ s.loadByte n a = s.finalByte a)) := by
  unfold State.loadByte State.drawOutputByte
  cases s.busy <;> cases s.inOutput a <;> cases Config.busyReadSeesFinal n <;> simp

/-- Everything a host load can do that leads on. -/
theorem hostLoad_eq_next_iff {s t : State} {addr : BitVec 32} {size : Nat} :
    s.hostLoad addr size = .next t ↔
      addr.toNat + size ≤ Config.addrSpace ∧
      t = { s with
        loadData := (List.range size).map (fun i => s.loadByte (s.draws + i) (addr.toNat + i))
        draws := s.draws + size } := by
  unfold State.hostLoad
  by_cases h : Config.addrSpace < addr.toNat + size
  · rw [if_pos h]
    simp only [reduceCtorEq, false_iff, not_and]
    omega
  · rw [if_neg h]
    simp only [Host.Outcome.next.injEq]
    exact ⟨fun e => ⟨by omega, e.symm⟩, fun e => e.2.symm⟩

theorem advance_pending (s : State) (v : Variant) (y k : Nat) (l : List Event) :
    ({ s with pending := l } : State).advance v y k = { s.advance v y k with pending := l } := by
  rcases advance_cases s v y k with ⟨h, e⟩ | ⟨h, e⟩ <;>
    rcases advance_cases { s with pending := l } v y k with ⟨h', e'⟩ | ⟨h', e'⟩
  · rw [e, e']
  · exact absurd h h'
  · exact absurd h' h
  · rw [e, e']; rfl

theorem engineStep_pending (s : State) (y k : Nat) (l : List Event) :
    ({ s with pending := l } : State).engineStep y k = { s.engineStep y k with pending := l } := by
  rcases engineStep_cases s y k with ⟨a, h, e⟩ | ⟨h, e⟩ <;>
    rcases engineStep_cases { s with pending := l } y k with ⟨a', h', e'⟩ | ⟨h', e'⟩
  · obtain rfl : a = a' := Option.some.inj (h.symm.trans h')
    rw [e, e']; rfl
  · exact absurd (h.symm.trans (firstRefused_eq_none_iff.mpr h')) (by simp)
  · exact absurd (h'.symm.trans (firstRefused_eq_none_iff.mpr h)) (by simp)
  · rw [e, e']
    exact advance_pending
      { s with
        mem := Memory.writeLE s.mem (s.dstAddr s.lastVar y k) (outBytes s.lastVar)
          (stepOutput s.mem s.lastVar (s.topAddr s.lastVar y k) (s.botAddr s.lastVar y k)) }
      s.lastVar y k l

/-- What the engine does in its turn does not depend on the events to come. -/
theorem engineTurn_pending (s : State) (l : List Event) :
    ({ s with pending := l } : State).engineTurn = { s.engineTurn with pending := l } := by
  rcases engineTurn_cases s with ⟨h, e⟩ | ⟨y, k, h, e⟩ <;>
    rcases engineTurn_cases { s with pending := l } with ⟨h', e'⟩ | ⟨y', k', h', e'⟩
  · rw [e, e']
  · exact absurd (h.symm.trans h') (by simp)
  · exact absurd (h.symm.trans h') (by simp)
  · obtain ⟨rfl, rfl⟩ : y = y' ∧ k = k' := by simpa using h.symm.trans h'
    rw [e, e']
    exact engineStep_pending s y k l

theorem engineTurns_pending (l : List Event) :
    ∀ (n : Nat) (s : State),
      ({ s with pending := l } : State).engineTurns n = { s.engineTurns n with pending := l }
  | 0, _ => rfl
  | n + 1, s => by
    simp only [State.engineTurns, engineTurn_pending]
    exact engineTurns_pending l n s.engineTurn

/-- An idle engine's turns change nothing. -/
theorem engineTurns_idle {s : State} (h : s.phase = .idle) : ∀ n, s.engineTurns n = s
  | 0 => rfl
  | n + 1 => by
    have e : s.engineTurn = s := by simp [State.engineTurn, h]
    rw [State.engineTurns, e, engineTurns_idle h n]

/-- Everything one poll of `hse.wait` can do. -/
theorem waitTurn_cases (s : State) :
    (s.waitTurn = s.respond s.statusWord) ∨
    (s.waitTurn = { s.respond s.statusWord with pending := .engine :: .wait :: s.pending }) := by
  by_cases h : (s.respond (s.readReg .status)).readData.getLsbD 0 = true
  · exact .inr (if_pos h)
  · exact .inl (if_neg h)

/-- The fetch takes one event off the list: a register access, or a host access that touches the
window. -/
theorem fetch_eq_some_iff {s u : State} {r : Request} :
    s.fetch = some (r, u) ↔
      ∃ e rest, s.pending = e :: rest ∧ u = { s with pending := rest } ∧
        (e = .access r ∨
          (∃ a n, e = .load a n ∧ touchesWindow s.platform a.toNat n = true ∧
            r = busRequest s.platform.engineBase false a n 0#32) ∨
          (∃ a bs, e = .store a bs ∧ touchesWindow s.platform a.toNat bs.length = true ∧
            r = busRequest s.platform.engineBase true a bs.length (bytesWord bs))) := by
  unfold State.fetch
  constructor
  · intro h
    split at h
    · next r' rest hp =>
      cases h
      exact ⟨_, rest, hp, rfl, .inl rfl⟩
    · next a n rest hp =>
      split at h
      · next hw => cases h; exact ⟨_, rest, hp, rfl, .inr (.inl ⟨a, n, rfl, hw, rfl⟩)⟩
      · cases h
    · next a bs rest hp =>
      split at h
      · next hw => cases h; exact ⟨_, rest, hp, rfl, .inr (.inr ⟨a, bs, rfl, hw, rfl⟩)⟩
      · cases h
    · cases h
  · rintro ⟨e, rest, hp, rfl, rfl | ⟨a, n, rfl, hw, rfl⟩ | ⟨a, bs, rfl, hw, rfl⟩⟩ <;> rw [hp]
    · exact if_pos hw
    · exact if_pos hw

/-- With an engine turn next, the step is that turn, and one turn fewer is still to come. -/
theorem step_of_engineTurnsNext {s : State} {n : Nat} {rest : List Event}
    (h : s.engineTurnsNext (n + 1) rest) :
    ∃ l, step s = .next { s.engineTurn with pending := l } ∧
      ({ s.engineTurn with pending := l } : State).engineTurnsNext n rest := by
  rcases h with ⟨h, rfl⟩ | h
  · refine ⟨[], ?_, .inl ⟨rfl, rfl⟩⟩
    rw [← engineTurn_pending, show ({ s with pending := [] } : State) = s by rw [← h]]
    simp [step, State.fetch, State.otherTurn, h]
  · refine ⟨List.replicate n .engine ++ rest, ?_, .inr rfl⟩
    rw [← engineTurn_pending]
    simp [step, State.fetch, State.otherTurn, h, List.replicate_succ]

/-- Everything a step can do: by the next event, or the engine's turn where none is left. -/
theorem step_cases (s : State) :
    (∃ r u, s.fetch = some (r, u) ∧ step s = exec (decode r) u) ∨
    (∃ a n rest, s.pending = .load a n :: rest ∧ touchesWindow s.platform a.toNat n = false ∧
      step s = { s with pending := rest }.hostLoad a n) ∨
    (∃ a bs rest, s.pending = .store a bs :: rest ∧
      touchesWindow s.platform a.toNat bs.length = false ∧
      step s = { s with pending := rest }.hostStore a bs) ∨
    (∃ rest, s.pending = .reset :: rest ∧ step s = .next { s with pending := rest }.resetEngine) ∨
    (∃ rest, s.pending = .engine :: rest ∧ step s = .next { s with pending := rest }.engineTurn) ∨
    (∃ rest, s.pending = .wait :: rest ∧ step s = .next { s with pending := rest }.waitTurn) ∨
    (s.pending = [] ∧ step s = .next s.engineTurn) := by
  cases hf : s.fetch with
  | some q => exact .inl ⟨q.1, q.2, rfl, by simp [step, hf]⟩
  | none =>
    have hs : step s = s.otherTurn := by simp [step, hf]
    rw [hs]
    cases h : s.pending with
    | nil => simp [State.otherTurn, h]
    | cons e rest =>
      cases e <;> simp_all [State.fetch, State.otherTurn]

end Sys2Proof.Machine
end

