-- ==== Sys2Proof/Laws/PerInstr.lean ====
section
/-!
SUPPORT. A property of every instruction, one lemma per constructor: decoding the encoding of a
well-formed instruction gives it back (`30_encoding.md` R92, R96).
-/

namespace Sys2Proof.Laws.RoundTrip

open Sys2Proof

/-- The instruction as syntax: where it is well formed, its encoding decodes to it. -/
def Statement (i : Instr) : Prop := i.wf = true → decode (encode i) = i

theorem keyOffset_mmioKey (w : Bool) (off : BitVec 12) : keyOffset (mmioKey w off) = off := by
  unfold keyOffset mmioKey
  ext i hi
  have h := BitVec.getLsbD_append (x := BitVec.ofBool w) (y := off) (i := i)
  rw [if_pos hi] at h
  simpa [BitVec.getLsbD_eq_getElem, hi] using h

theorem keyIsWrite_mmioKey (w : Bool) (off : BitVec 12) : keyIsWrite (mmioKey w off) = w := by
  have h := BitVec.getLsbD_append (x := BitVec.ofBool w) (y := off) (i := 12)
  exact h.trans (by cases w <;> rfl)

theorem offsetReg_regOffset (reg : BitVec 10) : offsetReg (regOffset reg) = reg := by
  unfold offsetReg regOffset
  ext i hi
  have h := BitVec.getLsbD_append (x := reg) (y := 0#2) (i := 2 + i)
  rw [if_neg (by omega), show 2 + i - 2 = i by omega] at h
  simpa [BitVec.getLsbD_eq_getElem, hi] using h

theorem refusedAccess_regOffset (reg : BitVec 10) : refusedAccess (regOffset reg) 4 = false := by
  have h : (regOffset reg).extractLsb' 0 2 = 0#2 := by
    unfold regOffset
    ext i hi
    have h := BitVec.getLsbD_append (x := reg) (y := 0#2) (i := i)
    rw [if_pos hi] at h
    simpa using h
  simp [refusedAccess, h]

theorem decode_encodeRead (reg : BitVec 10) : decode (encodeRead reg) = decodeRead reg := by
  simp [decode, encodeRead, decodeMmio, keyOffset_mmioKey, keyIsWrite_mmioKey, offsetReg_regOffset,
    refusedAccess_regOffset]

theorem decode_encodeWrite (reg : BitVec 10) (data : Word) :
    decode (encodeWrite reg data) = decodeWrite reg data := by
  simp [decode, encodeWrite, decodeMmio, keyOffset_mmioKey, keyIsWrite_mmioKey, offsetReg_regOffset,
    refusedAccess_regOffset]

theorem rdId : Statement .rdId := fun _ => decode_encodeRead _
theorem rdCap : Statement .rdCap := fun _ => decode_encodeRead _
theorem rdCtrl : Statement .rdCtrl := fun _ => decode_encodeRead _
theorem rdCmd : Statement .rdCmd := fun _ => decode_encodeRead _
theorem rdStatus : Statement .rdStatus := fun _ => decode_encodeRead _
theorem rdSrc : Statement .rdSrc := fun _ => decode_encodeRead _
theorem rdDst : Statement .rdDst := fun _ => decode_encodeRead _
theorem rdWidth : Statement .rdWidth := fun _ => decode_encodeRead _
theorem rdHeight : Statement .rdHeight := fun _ => decode_encodeRead _
theorem rdDstLen : Statement .rdDstLen := fun _ => decode_encodeRead _
theorem rdProgress : Statement .rdProgress := fun _ => decode_encodeRead _
theorem rdFaultAddr : Statement .rdFaultAddr := fun _ => decode_encodeRead _
theorem rdNone (reg : BitVec 10) : Statement (.rdNone reg) := by
  intro h
  have h12 : 12 ≤ reg.toNat := by simpa [Instr.wf, unusedReg] using h
  show decode (encodeRead reg) = _
  rw [decode_encodeRead]
  unfold decodeRead
  split <;> first | omega | rfl
theorem wrId (data : Word) : Statement (.wrId data) := fun _ => decode_encodeWrite _ data
theorem wrCap (data : Word) : Statement (.wrCap data) := fun _ => decode_encodeWrite _ data
theorem wrCtrl (data : Word) : Statement (.wrCtrl data) := fun _ => decode_encodeWrite _ data
theorem wrCmd (data : Word) : Statement (.wrCmd data) := fun _ => decode_encodeWrite _ data
theorem wrStatus (data : Word) : Statement (.wrStatus data) := fun _ => decode_encodeWrite _ data
theorem wrSrc (data : Word) : Statement (.wrSrc data) := fun _ => decode_encodeWrite _ data
theorem wrDst (data : Word) : Statement (.wrDst data) := fun _ => decode_encodeWrite _ data
theorem wrWidth (data : Word) : Statement (.wrWidth data) := fun _ => decode_encodeWrite _ data
theorem wrHeight (data : Word) : Statement (.wrHeight data) := fun _ => decode_encodeWrite _ data
theorem wrDstLen (data : Word) : Statement (.wrDstLen data) := fun _ => decode_encodeWrite _ data
theorem wrProgress (data : Word) : Statement (.wrProgress data) := fun _ => decode_encodeWrite _ data
theorem wrFaultAddr (data : Word) : Statement (.wrFaultAddr data) := fun _ => decode_encodeWrite _ data
theorem wrNone (reg : BitVec 10) (data : Word) : Statement (.wrNone reg data) := by
  intro h
  have h12 : 12 ≤ reg.toNat := by simpa [Instr.wf, unusedReg] using h
  show decode (encodeWrite reg data) = _
  rw [decode_encodeWrite]
  unfold decodeWrite
  split <;> first | omega | rfl
theorem mmioMisaligned (w : Bool) (off : BitVec 12) (size : Nat) :
    Statement (.mmioMisaligned w off size) := by
  intro h
  have h' : refusedAccess off size = true := h
  simp [encode, decode, decodeMmio, keyOffset_mmioKey, keyIsWrite_mmioKey, h']
theorem nop : Statement .nop := fun _ => by decide
theorem startScalar : Statement .startScalar := fun _ => by decide
theorem startP32 : Statement .startP32 := fun _ => by decide
theorem startP32x2 : Statement .startP32x2 := fun _ => by decide
theorem startP64 : Statement .startP64 := fun _ => by decide
theorem startV128 : Statement .startV128 := fun _ => by decide
theorem clear : Statement .clear := fun _ => by decide

/-- A word is fixed by its three fields (R93). -/
theorem eq_of_fields {w : Word} {opc var rsvd n : Nat} (h0 : (w.extractLsb' 0 4).toNat = opc)
    (h1 : (w.extractLsb' 4 4).toNat = var) (h2 : (w.extractLsb' 8 24).toNat = rsvd)
    (h : n = opc + 16 * var + 256 * rsvd) : w = BitVec.ofNat 32 n := by
  apply BitVec.eq_of_toNat_eq
  simp only [BitVec.extractLsb'_toNat, Nat.shiftRight_eq_div_pow] at h0 h1 h2
  have := w.isLt
  rw [BitVec.toNat_ofNat]
  omega

/-- The variants of R95. -/
theorem decodeVariant_some {var : BitVec 4} {v : Variant} (h : decodeVariant var = some v) :
    var.toNat = (match v with
      | .scalar => 0
      | .p32 => 1
      | .p32x2 => 2
      | .p64 => 3
      | .v128 => 4) := by
  unfold decodeVariant at h
  split at h <;> first | (cases h; assumption) | cases h

/-- A word that is none of the seven legal ones decodes to itself, illegal (R97). -/
theorem decodeCommand_illegal {w : Word} (h : legalWords.contains w = false) :
    decodeCommand w = .illegal w := by
  have hne : ∀ n ∈ [0, 1, 17, 33, 49, 65, 2], w ≠ BitVec.ofNat 32 n := by
    simp [legalWords] at h
    simp
    tauto
  unfold decodeCommand
  dsimp only
  split
  · rfl
  next hr =>
  have h2 : (w.extractLsb' 8 24).toNat = 0 := by rw [not_not.mp hr]; rfl
  split
  · next h0 =>
    split
    · next h1 => exact absurd (eq_of_fields h0 (congrArg BitVec.toNat h1) h2 rfl) (hne 0 (by simp))
    · rfl
  · next h0 =>
    split
    · next v hv =>
      have h1 := decodeVariant_some hv
      cases v
      · exact absurd (eq_of_fields h0 h1 h2 rfl) (hne 1 (by simp))
      · exact absurd (eq_of_fields h0 h1 h2 rfl) (hne 17 (by simp))
      · exact absurd (eq_of_fields h0 h1 h2 rfl) (hne 33 (by simp))
      · exact absurd (eq_of_fields h0 h1 h2 rfl) (hne 49 (by simp))
      · exact absurd (eq_of_fields h0 h1 h2 rfl) (hne 65 (by simp))
    · rfl
  · next h0 =>
    split
    · next h1 => exact absurd (eq_of_fields h0 (congrArg BitVec.toNat h1) h2 rfl) (hne 2 (by simp))
    · rfl
  · rfl

theorem cmdIllegal (word : Word) : Statement (.cmdIllegal word) := by
  intro h
  have h' : legalWords.contains word = false := by simpa [Instr.wf] using h
  simp [encode, decode, decodeCommand_illegal h', Command.toInstr]

end Sys2Proof.Laws.RoundTrip
end

