-- ==== Sys2Proof/Tests/Slice0.lean ====
section
/-!
SUPPORT. The model's own tests. Every expected value is taken from the spec: the encodings of
`30_encoding.md` R92 and R96, the examples of the rules, and the vectors of `95_test_vectors.md`, named in
each group's comment. The `witness_` theorems show, for each statement with hypotheses, states and
operands that meet them.
-/

namespace Sys2Proof.Tests

open Sys2Proof Sys2Proof.Machine

/-! ### Helpers -/

/-- The next state of an outcome, or `d` where there is none. -/
def nextOf (o : Result) (d : State) : State :=
  match o with
  | .next t => t
  | .fault _ => d
  | .refused _ => d

/-- Whether an outcome is a next state. -/
def isNext : Result → Bool
  | .next _ => true
  | .fault _ => false
  | .refused _ => false

/-- The fault of an outcome. -/
def faultOf (o : Result) : Option Fault :=
  match o with
  | .next _ => none
  | .fault f => some f
  | .refused _ => none

theorem eq_next_of_isNext {o : Result} (d : State) (h : isNext o = true) : o = .next (nextOf o d) := by
  cases o <;> simp_all [isNext, nextOf]

/-- The state after one instruction from `s`. -/
def after (i : Instr) (s : State) : State := nextOf (exec i s) s

/-- The state after one step from `s`. -/
def stepped (s : State) : State := nextOf (step s) s

/-- The cells that hold `bytes` from address `a`. -/
def cellsFrom (a : Nat) : List Nat → Memory
  | [] => []
  | b :: l => if b = 0 then cellsFrom (a + 1) l else (a, BitVec.ofNat 8 b) :: cellsFrom (a + 1) l

/-- An idle engine with the given job in its registers. -/
def job (src dst w h len : Nat) : State :=
  { State.reset with
    src := BitVec.ofNat 32 src, dst := BitVec.ofNat 32 dst, width := BitVec.ofNat 32 w,
    height := BitVec.ofNat 32 h, dstLen := BitVec.ofNat 32 len }

/-- A job of variant `v` in RUN at (0, 0), with `m` in memory. -/
def running (v : Variant) (m : Memory) (w h : Nat) : State :=
  { job 0x1000 0x2000 w h (w / 2 * (h / 2)) with
    lastVar := v, phase := .run 0 0, mem := m, memAtStart := m }

/-- A busy engine: the 4×2 job of DOC scenario 4 on SCALAR, one of its two steps done (R151). -/
def busyState : State :=
  { running .scalar (cellsFrom 0x1000 [1, 2, 3, 4, 5, 6, 7, 8]) 4 2 with
    phase := .run 0 1, progress := 1#32,
    mem := cellsFrom 0x1000 [1, 2, 3, 4, 5, 6, 7, 8] ++ [(0x2000, 4#8)] }

/-- `n` bytes of memory from `a`, as numbers. -/
def bytes (s : State) (a n : Nat) : List Nat :=
  (List.range n).map (fun i => (Memory.readByte s.mem (a + i)).toNat)

/-! ### Decoding: a word written out from the spec's encoding for every constructor (R92, R96, R97) -/

theorem test_decode_rdId : decode (.mmio 0b0000000000000#13 4 0#32) = .rdId := by decide
theorem test_decode_rdCap : decode (.mmio 0b0000000000100#13 4 0#32) = .rdCap := by decide
theorem test_decode_rdCtrl : decode (.mmio 0b0000000001000#13 4 0#32) = .rdCtrl := by decide
theorem test_decode_rdCmd : decode (.mmio 0b0000000001100#13 4 0#32) = .rdCmd := by decide
theorem test_decode_rdStatus : decode (.mmio 0b0000000010000#13 4 0#32) = .rdStatus := by decide
theorem test_decode_rdSrc : decode (.mmio 0b0000000010100#13 4 0#32) = .rdSrc := by decide
theorem test_decode_rdDst : decode (.mmio 0b0000000011000#13 4 0#32) = .rdDst := by decide
theorem test_decode_rdWidth : decode (.mmio 0b0000000011100#13 4 0#32) = .rdWidth := by decide
theorem test_decode_rdHeight : decode (.mmio 0b0000000100000#13 4 0#32) = .rdHeight := by decide
theorem test_decode_rdDstLen : decode (.mmio 0b0000000100100#13 4 0#32) = .rdDstLen := by decide
theorem test_decode_rdProgress : decode (.mmio 0b0000000101000#13 4 0#32) = .rdProgress := by decide
theorem test_decode_rdFaultAddr : decode (.mmio 0b0000000101100#13 4 0#32) = .rdFaultAddr := by decide
theorem test_decode_rdNone_first : decode (.mmio 0b0000000110000#13 4 0#32) = .rdNone 12#10 := by decide
theorem test_decode_rdNone_last : decode (.mmio 0b0111111111100#13 4 0#32) = .rdNone 1023#10 := by decide
theorem test_decode_wrId : decode (.mmio 0b1000000000000#13 4 0xA5#32) = .wrId 0xA5#32 := by decide
theorem test_decode_wrCap : decode (.mmio 0b1000000000100#13 4 0xA5#32) = .wrCap 0xA5#32 := by decide
theorem test_decode_wrCtrl : decode (.mmio 0b1000000001000#13 4 0xA5#32) = .wrCtrl 0xA5#32 := by decide
theorem test_decode_wrCmd : decode (.mmio 0b1000000001100#13 4 0xA5#32) = .wrCmd 0xA5#32 := by decide
theorem test_decode_wrStatus : decode (.mmio 0b1000000010000#13 4 0xA5#32) = .wrStatus 0xA5#32 := by decide
theorem test_decode_wrSrc : decode (.mmio 0b1000000010100#13 4 0xA5#32) = .wrSrc 0xA5#32 := by decide
theorem test_decode_wrDst : decode (.mmio 0b1000000011000#13 4 0xA5#32) = .wrDst 0xA5#32 := by decide
theorem test_decode_wrWidth : decode (.mmio 0b1000000011100#13 4 0xA5#32) = .wrWidth 0xA5#32 := by decide
theorem test_decode_wrHeight : decode (.mmio 0b1000000100000#13 4 0xA5#32) = .wrHeight 0xA5#32 := by decide
theorem test_decode_wrDstLen : decode (.mmio 0b1000000100100#13 4 0xA5#32) = .wrDstLen 0xA5#32 := by decide
theorem test_decode_wrProgress : decode (.mmio 0b1000000101000#13 4 0xA5#32) = .wrProgress 0xA5#32 := by decide
theorem test_decode_wrFaultAddr : decode (.mmio 0b1000000101100#13 4 0xA5#32) = .wrFaultAddr 0xA5#32 := by decide
theorem test_decode_wrNone : decode (.mmio 0b1000000110000#13 4 7#32) = .wrNone 12#10 7#32 := by decide
theorem test_decode_misaligned :
    decode (.mmio 0b1000000010001#13 4 7#32) = .mmioMisaligned true 0x011#12 4 := by decide
theorem test_decode_halfword :
    decode (.mmio 0b0000000010000#13 2 0#32) = .mmioMisaligned false 0x010#12 2 := by decide
theorem test_decode_nop : decode (.cmd 0b00000000000000000000000000000000#32) = .nop := by decide
theorem test_decode_startScalar : decode (.cmd 0b00000000000000000000000000000001#32) = .startScalar := by decide
theorem test_decode_startP32 : decode (.cmd 0b00000000000000000000000000010001#32) = .startP32 := by decide
theorem test_decode_startP32x2 : decode (.cmd 0b00000000000000000000000000100001#32) = .startP32x2 := by decide
theorem test_decode_startP64 : decode (.cmd 0b00000000000000000000000000110001#32) = .startP64 := by decide
theorem test_decode_startV128 : decode (.cmd 0b00000000000000000000000001000001#32) = .startV128 := by decide
theorem test_decode_clear : decode (.cmd 0b00000000000000000000000000000010#32) = .clear := by decide

/-- M2 to M6: VAR 5, RSVD ≠ 0, CLEAR with VAR ≠ 0, OPC 3, NOP with VAR ≠ 0. -/
theorem test_decode_cmdIllegal :
    decode (.cmd 0x51#32) = .cmdIllegal 0x51#32 ∧ decode (.cmd 0x102#32) = .cmdIllegal 0x102#32 ∧
    decode (.cmd 0x12#32) = .cmdIllegal 0x12#32 ∧ decode (.cmd 0x3#32) = .cmdIllegal 0x3#32 ∧
    decode (.cmd 0x10#32) = .cmdIllegal 0x10#32 := by decide

/-- The host's table words: a KEY row, a command row, and one of the two wide rows of entry 15. -/
theorem test_decodeTableWord :
    decodeTableWord 16 0x1014 = some (.wrSrc 0#32) ∧ decodeTableWord 32 0x41 = some .startV128 ∧
    decodeTableWord 32 0x40 = some (.rdNone 16#10) ∧
    decodeTableWord 8 0x3 = some (.mmioMisaligned false 3#12 4) ∧
    decodeTableWord 32 0x51 = some (.cmdIllegal 0x51#32) := by decide

/-! ### Well-formedness refuses an ill-formed term of each check -/

theorem test_wf_rdNone : (Instr.rdNone 11#10).wf = false ∧ (Instr.rdNone 12#10).wf = true := by decide
theorem test_wf_wrNone :
    (Instr.wrNone 0#10 5#32).wf = false ∧ (Instr.wrNone 1023#10 5#32).wf = true := by decide
theorem test_wf_mmioMisaligned :
    (Instr.mmioMisaligned false 0x010#12 4).wf = false ∧
    (Instr.mmioMisaligned false 0x011#12 4).wf = true ∧
    (Instr.mmioMisaligned true 0x010#12 8).wf = true := by decide
theorem test_wf_cmdIllegal :
    (Instr.cmdIllegal 0x41#32).wf = false ∧ (Instr.cmdIllegal 0x61#32).wf = true := by decide

/-! ### Register accesses (G1 to G8, the examples of R121 to R130) -/

theorem test_rdId : (after .rdId State.reset).readData = 0x48530007#32 := by decide
theorem test_rdCap : (after .rdCap State.reset).readData = 0x1F#32 := by decide
theorem test_rdCap_without_v128 :
    (after .rdCap { State.reset with
      platform := { Config.initialPlatform with hasV128 := false } }).readData = 0x0F#32 := by decide
theorem test_wrCtrl_rdCtrl :
    (after .rdCtrl (after (.wrCtrl 0xFFFFFFFF#32) State.reset)).readData = 1#32 := by decide
theorem test_rdCmd : (after .rdCmd (after (.wrCmd 0x11#32) State.reset)).readData = 0#32 := by decide
theorem test_rdStatus_busy : (after .rdStatus busyState).readData = 0x00000001#32 := by decide
theorem test_rdNone : (after (.rdNone 1023#10) { State.reset with readData := 9#32 }).readData = 0#32 := by
  decide
theorem test_wrWidth_rdWidth :
    (after .rdWidth (after (.wrWidth 0xFFFFFFFF#32) State.reset)).readData = 0xFFFFFFFF#32 := by decide
theorem test_wrSrc : (after (.wrSrc 0x1001#32) State.reset).src = 0x1001#32 := by decide
theorem test_wrDst : (after (.wrDst 0x2003#32) State.reset).dst = 0x2003#32 := by decide
theorem test_wrHeight : (after (.wrHeight 720#32) State.reset).height = 720#32 := by decide
theorem test_wrDstLen : (after (.wrDstLen 104#32) State.reset).dstLen = 104#32 := by decide
/-- P6 line 7: a WIDTH write while BUSY is ignored and sets IGNW. -/
theorem test_wrWidth_busy :
    (after (.wrWidth 8#32) busyState).width = 4#32 ∧ (after (.wrWidth 8#32) busyState).ignw = true := by
  decide
/-- G6: a write to STATUS after DONE leaves DONE = 1; not even IGNW is set while BUSY (R130). -/
theorem test_wrStatus :
    (after (.wrStatus 0#32) { State.reset with done := true }).done = true ∧
    (after (.wrStatus 0#32) busyState).ignw = false := by decide
theorem test_wrProgress : (after (.wrProgress 0#32) busyState).progress = 1#32 := by decide

/-! ### Commands (C1 to C25, M1 to M8) -/

/-- The STATUS word after a START of variant `v` on a job. -/
def statusAfter (v : Variant) (src dst w h len : Nat) : Word :=
  (after (startInstr v) (job src dst w h len)).statusWord

/-- C1, C12, C13, C16, C17, C22, C23. -/
theorem test_startP32 :
    statusAfter .p32 0x1000 0x2000 4 2 2 = 0x00010001#32 ∧
    statusAfter .p32 0xFFFFFFF8 0x1000 4 2 2 = 0x00010001#32 ∧
    statusAfter .p32 0xFFFFFFFC 0x1000 4 2 2 = 0x00010404#32 ∧
    statusAfter .p32 0x1000 0x1004 4 2 2 = 0x00010504#32 ∧
    statusAfter .p32 0x1000 0x1008 4 2 2 = 0x00010001#32 ∧
    statusAfter .p32 0x1001 0x2000 6 2 0 = 0x00010104#32 ∧
    statusAfter .p32 0x1001 0x2000 8 2 0 = 0x00010204#32 := by decide
/-- C2, C3, C11, C14, C15, C18, C19. -/
theorem test_startScalar :
    statusAfter .scalar 0x1000 0x2000 4 3 2 = 0x00000104#32 ∧
    statusAfter .scalar 0x1000 0x2000 3 2 1 = 0x00000104#32 ∧
    statusAfter .scalar 0x1001 0x2003 2 2 1 = 0x00000001#32 ∧
    statusAfter .scalar 0x1000 0xFFFFFFFE 4 2 2 = 0x00000001#32 ∧
    statusAfter .scalar 0x1000 0xFFFFFFFF 4 2 2 = 0x00000404#32 ∧
    statusAfter .scalar 0x1000 0x0FFE 4 2 2 = 0x00000001#32 ∧
    statusAfter .scalar 0x1000 0x1000 2 2 1 = 0x00000504#32 := by decide
/-- C4, C9, C20, C21. -/
theorem test_startP64 :
    statusAfter .p64 0x1000 0x2000 4 2 2 = 0x00030104#32 ∧
    statusAfter .p64 0x1004 0x2000 8 2 4 = 0x00030304#32 ∧
    statusAfter .p64 0x1000 0x1000 0 720 0 = 0x00030002#32 ∧
    statusAfter .p64 0x1001 0x2000 8 0 0 = 0x00030304#32 := by decide
/-- C6, C7, C8. -/
theorem test_startP32x2 :
    statusAfter .p32x2 0x1000 0x2000 8 2 3 = 0x00020204#32 ∧
    statusAfter .p32x2 0x1000 0x2000 8 2 104 = 0x00020001#32 ∧
    statusAfter .p32x2 0x1004 0x2004 8 2 4 = 0x00020001#32 := by decide
/-- C5, C10, C26. -/
theorem test_startV128 :
    statusAfter .v128 0x1000 0x2000 36 2 18 = 0x00040104#32 ∧
    statusAfter .v128 0x1000 0x2008 32 2 16 = 0x00040304#32 ∧
    statusAfter .v128 0x100000 0x400000 1280 720 230400 = 0x00040001#32 := by decide +kernel
/-- C25: UnsupportedVariant wins over InvalidDimensions. -/
theorem test_startV128_unsupported :
    (after .startV128 { job 0x1000 0x2000 3 3 0 with
      platform := { Config.initialPlatform with hasV128 := false } }).statusWord = 0x00040804#32 := by
  decide
/-- P6 lines 8 and 9: while BUSY a CLEAR and a START only set IGNW. -/
theorem test_commands_busy :
    (after .clear busyState).statusWord = 0x00000009#32 ∧
    (after .startP64 busyState).statusWord = 0x00000009#32 ∧
    (after .nop busyState).statusWord = 0x00000001#32 := by decide
/-- M2 and M8: the illegal word keeps LAST_VAR. -/
theorem test_cmdIllegal :
    (after (.cmdIllegal 0x51#32) State.reset).statusWord = 0x00000704#32 ∧
    (after (.cmdIllegal 0x51#32) { State.reset with lastVar := .p64 }).statusWord = 0x00030704#32 := by
  decide
/-- R129's example. -/
theorem test_clear :
    (after .clear { State.reset with done := true, lastVar := .p64 }).statusWord = 0x00030000#32 := by
  decide
/-- M7: CLEAR written to CMD after an illegal word. -/
theorem test_wrCmd :
    (after (.wrCmd 2#32) (after (.wrCmd 0x51#32) State.reset)).statusWord = 0#32 := by decide

/-! ### Datapaths (W1 to W7, X1 to X4, D1, V1 to V10, K1 to K11) -/

theorem test_splitEven : splitEven M32 0x04030201#32 = 0x00030001#32 := by decide
theorem test_splitOdd : splitOdd M32 0x04030201#32 = 0x00040002#32 := by decide
theorem test_laneSum : laneSum M32 BIAS32 0x04030201#32 0x08070605#32 = 0x00180010#32 := by decide
theorem test_extract : extract M32 0x00180010#32 = 0x00060004#32 := by decide
theorem test_avg32 :
    avg32 0x04030201#32 0x08070605#32 = 0x0604#16 ∧ avg32 0xFFFFFFFF#32 0xFFFFFFFF#32 = 0xFFFF#16 ∧
    avg32 0x00010000#32 0x03000001#32 = 0x0100#16 ∧ avg32 0x00FFFF00#32 0xFF0000FF#32 = 0x8080#16 ∧
    avg32 0x00000001#32 0#32 = 0#16 ∧ avg32 0x00000101#32 0#32 = 1#16 := by decide
theorem test_fold64First :
    fold64First 0x000C000A00080006#64 = 0x00000C0A00000806#64 := by decide
theorem test_avg64 :
    avg64 0x0807060504030201#64 0x100F0E0D0C0B0A09#64 = 0x0C0A0806#32 ∧
    avg64 0x0101FFFF0000FFFF#64 0x0201FFFF0000FFFF#64 = 0x01FF00FF#32 := by decide
theorem test_combine32x2 : combine32x2 0x0806#16 0x0C0A#16 = 0x0C0A0806#32 := by decide
theorem test_vSplit :
    vSplitEven 0x0F0E0D0C0B0A09080706050403020100#128 = 0x000E000C000A00080006000400020000#128 ∧
    vSplitOdd 0x0F0E0D0C0B0A09080706050403020100#128 = 0x000F000D000B00090007000500030001#128 := by
  decide
theorem test_vAvg :
    vAvg 0x0F0E0D0C0B0A09080706050403020100#128 0x2F2E2D2C2B2A29282726252423222120#128 =
      0x001F001D001B00190017001500130011#128 := by decide +kernel
theorem test_narrow :
    narrow 0x001F001D001B00190017001500130011#128 0x002F002D002B00290027002500230021#128 =
      0x2F2D2B29272523211F1D1B1917151311#128 := by decide
/-- V9: the byte-by-byte alternation writes 17, 33, 19, 35, …, which R198 calls wrong. -/
theorem test_shuffle_alternating :
    shuffle 0x001F001D001B00190017001500130011#128 0x002F002D002B00290027002500230021#128
      (fun i => if i.val % 2 = 0 then ⟨i.val, by omega⟩ else ⟨i.val + 15, by omega⟩) =
      0x2F1F2D1D2B1B29192717251523132111#128 := by decide
theorem test_scalarAverage :
    scalarAverage 10#8 20#8 30#8 40#8 = 25#8 ∧ scalarAverage 255#8 255#8 255#8 255#8 = 255#8 ∧
    scalarAverage 1#8 0#8 0#8 0#8 = 0#8 ∧ scalarAverage 1#8 1#8 0#8 0#8 = 1#8 ∧
    scalarAverage 252#8 255#8 255#8 253#8 = 254#8 := by decide

/-! ### Engine steps (B1 to B5, E1 to E3, P1, P3) -/

/-- S1 on SCALAR 2×2: one step, DONE. -/
theorem test_step_scalar :
    bytes (stepped (running .scalar (cellsFrom 0x1000 [10, 20, 30, 40]) 2 2)) 0x2000 2 = [25, 0] ∧
    (stepped (running .scalar (cellsFrom 0x1000 [10, 20, 30, 40]) 2 2)).statusWord = 0x2#32 := by decide
/-- P1. -/
theorem test_step_p32 :
    bytes (stepped (running .p32 (cellsFrom 0x1000 [1, 2, 3, 4, 5, 6, 7, 8]) 4 2)) 0x2000 3 =
      [4, 6, 0] := by decide
/-- D1. -/
theorem test_step_p32x2 :
    bytes (stepped (running .p32x2
      (cellsFrom 0x1000 [1, 2, 3, 4, 5, 6, 7, 8, 9, 10, 11, 12, 13, 14, 15, 16]) 8 2)) 0x2000 5 =
      [6, 8, 10, 12, 0] := by decide
/-- X1. -/
theorem test_step_p64 :
    bytes (stepped (running .p64
      (cellsFrom 0x1000 [1, 2, 3, 4, 5, 6, 7, 8, 9, 10, 11, 12, 13, 14, 15, 16]) 8 2)) 0x2000 5 =
      [6, 8, 10, 12, 0] := by decide
/-- P3. -/
theorem test_step_v128 :
    bytes (stepped (running .v128 (cellsFrom 0x1000 (List.range 64)) 32 2)) 0x2000 17 =
      [17, 19, 21, 23, 25, 27, 29, 31, 33, 35, 37, 39, 41, 43, 45, 47, 0] := by decide +kernel
/-- The cursor table of section 6: P32 on 8×4, step 2 goes on to (1, 0). -/
theorem test_step_cursor :
    (stepped { running .p32 [] 8 4 with phase := .run 0 1, progress := 2#32 }).phase = .run 1 0 ∧
    (stepped { running .p32 [] 8 4 with phase := .run 0 1, progress := 2#32 }).progress = 4#32 := by
  decide
/-- E3: a 2-byte write of which one byte is refused fails as a whole. -/
theorem test_step_busError :
    (stepped { running .p32 (cellsFrom 0x1000 [1, 2, 3, 4, 5, 6, 7, 8]) 4 2 with
      platform := { Config.initialPlatform with refused := [⟨0x2001, 1, none⟩] } }).statusWord =
      0x00010604#32 ∧
    (stepped { running .p32 (cellsFrom 0x1000 [1, 2, 3, 4, 5, 6, 7, 8]) 4 2 with
      platform := { Config.initialPlatform with refused := [⟨0x2001, 1, none⟩] } }).faultAddr =
      0x2000#32 := by decide
/-- The accesses of B1 to B5. -/
theorem test_accesses :
    (running .scalar [] 2 2).cursorAccesses 0 0 =
      [(0x1000, 1), (0x1001, 1), (0x1002, 1), (0x1003, 1), (0x2000, 1)] ∧
    (running .p32 [] 4 2).cursorAccesses 0 0 = [(0x1000, 4), (0x1004, 4), (0x2000, 2)] ∧
    (running .p32x2 [] 8 2).cursorAccesses 0 0 =
      [(0x1000, 4), (0x1004, 4), (0x1008, 4), (0x100C, 4), (0x2000, 4)] ∧
    (running .p64 [] 8 2).cursorAccesses 0 0 = [(0x1000, 8), (0x1008, 8), (0x2000, 4)] ∧
    (running .v128 [] 32 2).cursorAccesses 0 0 =
      [(0x1000, 16), (0x1010, 16), (0x1020, 16), (0x1030, 16), (0x2000, 16)] := by decide

/-! ### Host events -/

/-- The reset event keeps memory and ends the operation (R251, R252). -/
theorem test_reset_event :
    (stepped { busyState with pending := [.reset] }).phase = .idle ∧
    bytes (stepped { busyState with pending := [.reset] }) 0x2000 2 = [4, 0] := by decide
theorem test_host_store :
    bytes (stepped { State.reset with pending := [.store 0x1000#32 [7#8, 8#8]] }) 0x1000 3 =
      [7, 8, 0] := by decide
theorem test_host_load :
    (stepped { busyState with pending := [.load 0x1002#32 3] }).loadData = [3#8, 4#8, 5#8] := by decide
/-- R91: OFF is bits [11:0] of (address − ENGINE_BASE), at the ends of the window at 0x40000000. -/
theorem test_windowOffset :
    windowOffset 0x40000000 0x40000014#32 = 0x014#12 ∧
    windowOffset 0x40000000 0x40000FFC#32 = 0xFFC#12 ∧
    windowOffset 0xFFFFF000 0xFFFFF010#32 = 0x010#12 := by decide
/-- A host write of a word at ENGINE_BASE + 0x014 is WR.SRC, and a read at ENGINE_BASE is RD.ID. -/
theorem test_host_register_access :
    (stepped { State.reset with pending := [.store 0x40000014#32 [0x78#8, 0x56#8, 0x34#8, 0x12#8]] }).src =
      0x12345678#32 ∧
    (stepped { State.reset with pending := [.load 0x40000000#32 4] }).readData = 0x48530007#32 := by
  decide
/-- R137 through the host's addresses: a byte read of STATUS, and a read that runs into the window. -/
theorem test_host_window_fault :
    faultOf (step { State.reset with pending := [.load 0x40000010#32 1] }) =
      some (.mmioBusError false 0x010#12 1) ∧
    faultOf (step { State.reset with pending := [.load 0x3FFFFFFE#32 4] }) =
      some (.mmioBusError false 0xFFE#12 4) := by decide
theorem test_host_access_past_the_end :
    faultOf (step { State.reset with pending := [.load 0xFFFFFFFF#32 2] }) =
      some (.noSuchAddress 0xFFFFFFFF#32 2) := by decide
/-- R259: the second output byte ends as 6 where the operation completes (R151), keeps its old 0 where
reset comes first, and 6 again where reset comes after the last step (R251). -/
theorem test_finalByte :
    busyState.finalByte 0x2001 = 6#8 ∧
    ({ busyState with pending := [.reset] } : State).finalByte 0x2001 = 0#8 ∧
    ({ busyState with pending := [.reset] } : State).finalByte 0x2000 = 4#8 ∧
    ({ busyState with pending := [.load 0x2001#32 1, .engine, .reset] } : State).finalByte 0x2001 = 6#8 ∧
    ({ busyState with pending := [.wait, .reset] } : State).finalByte 0x2001 = 6#8 := by decide
/-- `hse.wait` polls again after an engine turn while BUSY = 1 (R100). -/
theorem test_wait :
    (stepped { busyState with pending := [.wait] }).pending = [.engine, .wait] ∧
    (stepped { State.reset with pending := [.wait] }).pending = [] := by decide
/-- A table word placed by `withFetchWord` is what the next step runs. -/
theorem test_withFetchWord :
    (stepped (State.reset.withFetchWord 16 0x0000)).readData = 0x48530007#32 ∧
    (stepped (State.reset.withFetchWord 32 0x51)).statusWord = 0x704#32 := by decide

/-! ### Witnesses: the hypotheses of each statement are met -/

theorem busyState_status : busyState.StatusInv := by
  unfold State.StatusInv
  decide

theorem busyState_accepted : startAccepted .scalar busyState := by
  unfold startAccepted badVariant badDimensions badLength badAlignment badRange badOverlap
  decide

theorem busyState_run : busyState.RunInv := by
  intro y k h
  obtain ⟨rfl, rfl⟩ : 0 = y ∧ 1 = k := by simpa [busyState] using h
  exact ⟨busyState_accepted, by decide⟩

theorem busyState_contents : busyState.ContentsInv := by
  intro _
  decide

theorem busyState_inv : busyState.Inv :=
  ⟨busyState_status, busyState_run, busyState_contents, by unfold State.MemInv; decide⟩

/-- A step of `s` answers a next state of which `P` holds. -/
theorem steps_to {P : State → Prop} (s : State) (h : isNext (step s) = true) (hP : P (stepped s)) :
    ∃ t, step s = .next t ∧ P t :=
  ⟨stepped s, eq_next_of_isNext s h, hP⟩

/-- On the initial platform an access outside the register window and inside the space is admitted. -/
theorem memOk_initial {a n : Nat} (h : a + n ≤ 0x40000000) : memOk Config.initialPlatform a n = true := by
  have h1 : a + n ≤ Config.addrSpace := by unfold Config.addrSpace; omega
  have h2 : ¬ (0x40000000 < a + n) := by omega
  simp [memOk, rangesMeet, Config.initialPlatform, h1, h2]

/-- The witness state in which P32's next access is refused: vector E3. -/
def refusedState : State :=
  { running .p32 (cellsFrom 0x1000 [1, 2, 3, 4, 5, 6, 7, 8]) 4 2 with
    platform := { Config.initialPlatform with refused := [⟨0x2001, 1, none⟩] } }

theorem refusedState_inv : refusedState.Inv := by
  refine ⟨by unfold State.StatusInv; decide, ?_, fun _ => by decide, by unfold State.MemInv; decide⟩
  intro y k h
  obtain ⟨rfl, rfl⟩ : 0 = y ∧ 0 = k := by simpa [refusedState, running] using h
  refine ⟨?_, by decide⟩
  unfold startAccepted badVariant badDimensions badLength badAlignment badRange badOverlap
  decide

theorem witness_DecodeOfEncodeIsIdentity :
    (Instr.rdNone 12#10).wf = true ∧ (Instr.wrNone 1023#10 5#32).wf = true ∧
    (Instr.mmioMisaligned true 3#12 4).wf = true ∧ (Instr.cmdIllegal 3#32).wf = true ∧
    Instr.nop.wf = true := by decide

theorem witness_MmioDecodeTableIsTotal :
    ((0x1FFF#13).toNat % 4 ≠ 0 ∨ (4 : Nat) ≠ 4) ∧ ((0x000#13).toNat % 4 ≠ 0 ∨ (2 : Nat) ≠ 4) ∧
    (0x0FFC#13).toNat % 4 = 0 ∧ (0x102C#13).toNat % 4 = 0 ∧ (0x1030#13).toNat % 4 = 0 := by decide

theorem witness_StepRunsDecodedInstruction :
    (({ State.reset with pending := [hseRd .status] } : State).pending =
      .access (encodeRead 4) :: []) ∧
    ((0x40000010#32).toNat = State.reset.platform.engineBase + (0x010#12).toNat ∧
      ({ State.reset with pending := [.load 0x40000010#32 4] } : State).pending =
        .load 0x40000010#32 4 :: []) ∧
    ((0x40000FFC#32).toNat = State.reset.platform.engineBase + (0xFFC#12).toNat ∧
      ({ State.reset with pending := [.store 0x40000FFC#32 (wordBytes 7#32)] } : State).pending =
        .store 0x40000FFC#32 (wordBytes 7#32) :: []) := by decide

theorem witness_UnnamedOffsetsReadZeroAndIgnoreWrites :
    12 ≤ (12#10).toNat ∧ 12 ≤ (1023#10).toNat := by decide

theorem witness_ConfigurationWritesAreBusyLocked :
    State.reset.busy = false ∧ busyState.busy = true := by decide

theorem witness_MisalignedAccessFaultsTheHostStep :
    (({ State.reset with pending := [.access (.mmio 0x011#13 4 0#32)] } : State).pending =
      .access (.mmio 0x011#13 4 0#32) :: []) ∧ (0x011#13).toNat % 4 ≠ 0 ∧
    (({ State.reset with pending := [.access (.mmio 0x010#13 1 0#32)] } : State).pending =
      .access (.mmio 0x010#13 1 0#32) :: []) ∧ (1 : Nat) ≠ 4 ∧
    ((0x40000011#32).toNat = State.reset.platform.engineBase + (0x011#12).toNat ∧
      (0x011#12).toNat % 4 ≠ 0 ∧
      ({ State.reset with pending := [.load 0x40000011#32 4] } : State).pending =
        .load 0x40000011#32 4 :: []) ∧
    ((0x40000010#32).toNat = State.reset.platform.engineBase + (0x010#12).toNat ∧
      [7#8].length ≠ 4 ∧
      ({ State.reset with pending := [.store 0x40000010#32 [7#8]] } : State).pending =
        .store 0x40000010#32 [7#8] :: []) := by decide

theorem witness_NopChangesNothing :
    busyState.busy = true ∧ busyState.ignw = false ∧ (0x2#32 : Word) ≠ 0#32 := by decide

theorem witness_ClearClearsCompletionAndErrorStatus :
    State.reset.busy = false ∧ busyState.busy = true := by decide

theorem witness_IllegalWordRaisesIllegalCommand : State.reset.busy = false := by decide

theorem witness_CmdWriteFollowsTheDecodeRule :
    busyState.busy = true ∧ (2#32 : Word) ≠ 0#32 ∧ State.reset.busy = false ∧
    (0x41#32 : Word) = startWord .v128 ∧ (0x51#32 : Word) ∉ legalWords ∧
    (0x101#32 : Word) ∉ legalWords := by decide

theorem witness_CommandsWhileBusyOnlySetIgnw : busyState.busy = true ∧ (1#32 : Word) ≠ 0#32 := by decide

/-- One job for each check of R126: C24, C2, C6, C9, C13, C19; and one that passes them all: C1. -/
theorem witness_StartReportsTheFirstFailingCheck :
    badVariant .v128 { job 0x1000 0x2000 32 2 16 with
      platform := { Config.initialPlatform with hasV128 := false } } ∧
    (¬ badVariant .scalar (job 0x1000 0x2000 4 3 2) ∧
      badDimensions .scalar (job 0x1000 0x2000 4 3 2)) ∧
    (¬ badVariant .p32x2 (job 0x1000 0x2000 8 2 3) ∧
      ¬ badDimensions .p32x2 (job 0x1000 0x2000 8 2 3) ∧ badLength (job 0x1000 0x2000 8 2 3)) ∧
    (¬ badVariant .p64 (job 0x1004 0x2000 8 2 4) ∧ ¬ badDimensions .p64 (job 0x1004 0x2000 8 2 4) ∧
      ¬ badLength (job 0x1004 0x2000 8 2 4) ∧ badAlignment .p64 (job 0x1004 0x2000 8 2 4)) ∧
    (¬ badVariant .p32 (job 0xFFFFFFFC 0x1000 4 2 2) ∧
      ¬ badDimensions .p32 (job 0xFFFFFFFC 0x1000 4 2 2) ∧
      ¬ badLength (job 0xFFFFFFFC 0x1000 4 2 2) ∧ ¬ badAlignment .p32 (job 0xFFFFFFFC 0x1000 4 2 2) ∧
      badRange (job 0xFFFFFFFC 0x1000 4 2 2)) ∧
    (¬ badVariant .scalar (job 0x1000 0x1000 2 2 1) ∧
      ¬ badDimensions .scalar (job 0x1000 0x1000 2 2 1) ∧ ¬ badLength (job 0x1000 0x1000 2 2 1) ∧
      ¬ badAlignment .scalar (job 0x1000 0x1000 2 2 1) ∧ ¬ badRange (job 0x1000 0x1000 2 2 1) ∧
      badOverlap (job 0x1000 0x1000 2 2 1)) ∧
    startAccepted .p32 (job 0x1000 0x2000 4 2 2) := by
  unfold startAccepted badVariant badDimensions badLength badAlignment badRange badOverlap
  refine ⟨?_, ?_, ?_, ?_, ?_, ?_, ?_⟩ <;> decide

/-- C20 (N = 0), and C12, C17 for N > 0 at the top of memory and with touching ranges. -/
theorem witness_AcceptedStartBeginsOrCompletes :
    (startAccepted .p64 (job 0x1000 0x1000 0 720 0) ∧ (job 0x1000 0x1000 0 720 0).opN = 0) ∧
    (startAccepted .p32 (job 0xFFFFFFF8 0x1000 4 2 2) ∧ 0 < (job 0xFFFFFFF8 0x1000 4 2 2).opN) ∧
    (startAccepted .p32 (job 0x1000 0x1008 4 2 2) ∧ (job 0x1000 0x1008 4 2 2).busy = false) := by
  unfold startAccepted badVariant badDimensions badLength badAlignment badRange badOverlap
  decide

/-- The first and the last byte of the window, and an access that ends past the address space. -/
theorem witness_WindowIsNeverReached :
    (0x3FFFFFFF ≤ 0x40000000 ∧ 0x40000000 < 0x3FFFFFFF + 4 ∧
      Config.initialPlatform.engineBase ≤ 0x40000000 ∧
      0x40000000 < Config.initialPlatform.engineBase + 0x1000) ∧
    (0x40000FFF < Config.initialPlatform.engineBase + 0x1000) ∧ 2 ^ 32 < 0xFFFFFFFF + 2 := by decide

theorem witness_ResetInputClearsRegistersAndKeepsMemory :
    ({ busyState with pending := [.reset] } : State).pending = .reset :: [] := by decide

theorem witness_EngineStepsOnlyInRun :
    State.reset.busy = false ∧ State.reset.pending = [] ∧
    ({ State.reset with pending := [.engine] } : State).pending = .engine :: [] ∧
    ({ busyState with pending := [.wait] } : State).pending = .wait :: [] := by decide

/-- The engine's turn is next both with no event left and where the schedule places it. -/
theorem engineTurnsNext_of_nil {s : State} (n : Nat) (h : s.pending = []) : s.engineTurnsNext n [] :=
  .inl ⟨h, rfl⟩

theorem engineTurnsNext_placed (s : State) (n : Nat) (rest : List Event) :
    ({ s with pending := List.replicate n .engine ++ rest } : State).engineTurnsNext n rest := .inr rfl

theorem busyState_stepAdmitted : busyState.stepAdmitted 0 1 := by
  unfold State.stepAdmitted
  decide

theorem witness_EngineStepWritesRoundedAverages :
    busyState.phase = .run 0 1 ∧ busyState.engineTurnsNext 1 [] ∧
    ({ busyState with pending := [.engine, .wait] } : State).engineTurnsNext 1 [.wait] ∧
    busyState.mem.wf = true ∧ busyState.stepAdmitted 0 1 :=
  ⟨rfl, engineTurnsNext_of_nil 1 rfl, engineTurnsNext_placed busyState 1 [.wait], by decide,
    busyState_stepAdmitted⟩

theorem witness_EngineStepAdvancesRowMajor :
    busyState.phase = .run 0 1 ∧ busyState.engineTurnsNext 1 [] ∧
    ({ busyState with pending := [.engine, .wait] } : State).engineTurnsNext 1 [.wait] ∧
    0 < busyState.opH / 2 ∧ busyState.stepAdmitted 0 1 :=
  ⟨rfl, engineTurnsNext_of_nil 1 rfl, engineTurnsNext_placed busyState 1 [.wait], by decide,
    busyState_stepAdmitted⟩

theorem witness_BusErrorIsPrecise :
    refusedState.phase = .run 0 0 ∧ refusedState.engineTurnsNext 1 [] ∧
    ({ refusedState with pending := [.engine, .wait] } : State).engineTurnsNext 1 [.wait] ∧
    (refusedState.cursorAccesses 0 0)[2]? = some (0x2000, 2) ∧
    memOk refusedState.platform 0x2000 2 = false ∧
    (∀ j q, j < 2 → (refusedState.cursorAccesses 0 0)[j]? = some q →
      memOk refusedState.platform q.1 q.2 = true) := by
  refine ⟨rfl, engineTurnsNext_of_nil 1 rfl, engineTurnsNext_placed refusedState 1 [.wait], by decide,
    by decide, ?_⟩
  intro j q hj
  match j, hj with
  | 0, _ => intro h; cases h; decide
  | 1, _ => intro h; cases h; decide

theorem witness_AccessesAreAlignedAndInsideTheBuffers :
    busyState.RunInv ∧ busyState.phase = .run 0 1 := ⟨busyState_run, rfl⟩

theorem witness_StepKeepsStatusInvariants :
    busyState.StatusInv ∧ ∃ t, step busyState = .next t ∧ t.busy = false :=
  ⟨busyState_status, steps_to busyState (by decide) (by decide)⟩

theorem witness_StepKeepsMemoryCanonical :
    busyState.MemInv ∧ ∃ t, step busyState = .next t ∧ Memory.readByte t.mem 0x2001 = 6#8 :=
  ⟨busyState_inv.mem, steps_to busyState (by decide) (by decide)⟩

theorem witness_StepKeepsTheInvariant :
    busyState.Inv ∧ ∃ t, step busyState = .next t ∧ t.done = true :=
  ⟨busyState_inv, steps_to busyState (by decide) (by decide)⟩

theorem witness_CompletedOperationMeetsTheRoundingLaw :
    busyState.Inv ∧ busyState.busy = true ∧
    ∃ t, step busyState = .next t ∧ t.busy = false ∧ t.done = true :=
  ⟨busyState_inv, by decide, steps_to busyState (by decide) (by decide)⟩

/-- Both ways an operation ends without DONE: a BusError and the reset input. -/
theorem witness_PartialOutputIsAPrefix :
    (refusedState.Inv ∧ refusedState.busy = true ∧
      ∃ t, step refusedState = .next t ∧ t.busy = false ∧ t.done = false ∧ t.err = true) ∧
    (({ busyState with pending := [.reset] } : State).Inv ∧
      ∃ t, step { busyState with pending := [.reset] } = .next t ∧ t.busy = false ∧ t.done = false) :=
  ⟨⟨refusedState_inv, by decide, steps_to refusedState (by decide) (by decide)⟩,
    ⟨⟨busyState_inv.status, busyState_inv.run, busyState_inv.contents, busyState_inv.mem⟩,
      steps_to { busyState with pending := [.reset] } (by decide) (by decide)⟩⟩

theorem witness_EngineNeverWritesItsInput :
    busyState.RunInv ∧ busyState.mem.wf = true ∧ busyState.opS ≤ 0x1007 ∧
    0x1007 < busyState.opS + busyState.opW * busyState.opH :=
  ⟨busyState_run, by decide, by decide, by decide⟩

/-- The 8×2 job of R173 and R175 with its input bytes in memory, at `src`. -/
def filledJob (src : Nat) : State :=
  { job src 0x2000 8 2 4 with
    mem := cellsFrom src [1, 2, 3, 4, 5, 6, 7, 8, 9, 10, 11, 12, 13, 14, 15, 16] }

theorem filledJob_admitted (src : Nat) (h : src = 0x1000 ∨ src = 0x1008) :
    (filledJob src).buffersAdmitted := by
  intro a n _ hab
  refine memOk_initial ?_
  have hS : (filledJob src).opS = src := by rcases h with rfl | rfl <;> decide
  have hD : (filledJob src).opD = 0x2000 := by rfl
  have hW : (filledJob src).opW * (filledJob src).opH = 16 := by rfl
  have hN : (filledJob src).opN = 4 := by rcases h with rfl | rfl <;> decide
  rw [hS, hD, hW, hN] at hab
  omega

theorem witness_AcceptedOperationRunsToCompletion :
    (filledJob 0x1000).busy = false ∧ (filledJob 0x1000).engineTurnsNext 1 [] ∧
    ({ filledJob 0x1000 with pending := [.engine, .load 0x2000#32 4] } : State).engineTurnsNext 1
      [.load 0x2000#32 4] ∧
    ({ filledJob 0x1000 with pending := [.wait] } : State).pending = .wait :: [] ∧
    ((filledJob 0x1000).opH / 2) * ((filledJob 0x1000).opW / columns .p64) = 1 ∧
    (filledJob 0x1000).mem.wf = true ∧ startAccepted .p64 (filledJob 0x1000) ∧
    0 < (filledJob 0x1000).opN ∧ (filledJob 0x1000).buffersAdmitted := by
  refine ⟨by decide, engineTurnsNext_of_nil 1 rfl, engineTurnsNext_placed (filledJob 0x1000) 1 _, rfl,
    by decide, by decide, ?_, by decide, filledJob_admitted _ (.inl rfl)⟩
  unfold startAccepted badVariant badDimensions badLength badAlignment badRange badOverlap
  decide

/-- P32X2 at 0x1000 and SCALAR at 0x1008 on the same bytes. -/
theorem witness_VariantsAgreeWithScalar :
    ((filledJob 0x1000).busy = false ∧ (filledJob 0x1000).engineTurnsNext 1 [] ∧
      (filledJob 0x1000).mem.wf = true ∧ startAccepted .p32x2 (filledJob 0x1000) ∧
      (filledJob 0x1000).buffersAdmitted) ∧
    ((filledJob 0x1008).busy = false ∧ (filledJob 0x1008).engineTurnsNext 4 [] ∧
      (filledJob 0x1008).mem.wf = true ∧ startAccepted .scalar (filledJob 0x1008) ∧
      (filledJob 0x1008).buffersAdmitted) ∧
    0 < (filledJob 0x1000).opN ∧ (filledJob 0x1008).width = (filledJob 0x1000).width ∧
    (filledJob 0x1008).height = (filledJob 0x1000).height ∧
    (∀ i, i < (filledJob 0x1000).opW * (filledJob 0x1000).opH →
      Memory.readByte (filledJob 0x1008).mem ((filledJob 0x1008).opS + i) =
        Memory.readByte (filledJob 0x1000).mem ((filledJob 0x1000).opS + i)) := by
  refine ⟨⟨by decide, engineTurnsNext_of_nil 1 rfl, by decide, ?_, filledJob_admitted _ (.inl rfl)⟩,
    ⟨by decide, engineTurnsNext_of_nil 4 rfl, by decide, ?_, filledJob_admitted _ (.inr rfl)⟩, by decide, rfl, rfl, by decide⟩
  all_goals
    unfold startAccepted badVariant badDimensions badLength badAlignment badRange badOverlap
    decide

theorem witness_EveryOperationEndsWithinItsStepBound :
    (busyState.Inv ∧ busyState.busy = true ∧
      (busyState.opH / 2) * (busyState.opW / columns busyState.lastVar) = 2 ∧
      busyState.engineTurnsNext 2 []) ∧
    (refusedState.Inv ∧ refusedState.busy = true ∧ refusedState.engineTurnsNext 1 []) ∧
    (({ refusedState with pending := [.wait] } : State).Inv ∧
      ({ refusedState with pending := [.wait] } : State).pending = .wait :: []) :=
  ⟨⟨busyState_inv, by decide, by decide, engineTurnsNext_of_nil 2 rfl⟩,
    ⟨refusedState_inv, by decide, engineTurnsNext_of_nil 1 rfl⟩,
    ⟨⟨refusedState_inv.status, refusedState_inv.run, refusedState_inv.contents, refusedState_inv.mem⟩,
      rfl⟩⟩

theorem witness_ParametersAreStableWhileBusy :
    ({ busyState with pending := [hseWr .width 8] } : State).busy = true ∧
    (∀ rest, ({ busyState with pending := [hseWr .width 8] } : State).pending ≠ .reset :: rest) ∧
    ∃ t, step { busyState with pending := [hseWr .width 8] } = .next t ∧ t.ignw = true :=
  ⟨by decide, by simp [hseWr], steps_to _ (by decide) (by decide)⟩

theorem witness_InstructionsLeaveMemory :
    ∃ t, exec .startScalar busyState = .next t ∧ t.ignw = true :=
  ⟨after .startScalar busyState, eq_next_of_isNext _ (by decide), by decide⟩

/-- One state for each clause: reset, START while idle, a completed step. -/
theorem witness_OnlyResetStartAndStepsWriteProgress :
    (∃ t, step { busyState with pending := [.reset] } = .next t ∧ t.progress ≠ busyState.progress) ∧
    (∃ t, step { job 0x1000 0x2000 4 2 2 with progress := 2#32, pending := [hseCmd 0x11#32] } = .next t ∧
      t.progress ≠ 2#32) ∧
    (∃ t, step busyState = .next t ∧ t.progress ≠ busyState.progress) :=
  ⟨steps_to _ (by decide) (by decide), steps_to _ (by decide) (by decide),
    steps_to _ (by decide) (by decide)⟩

/-- One state for each clause: reset, START while idle, a BusError. -/
theorem witness_OnlyBusErrorStartAndResetWriteFaultAddr :
    (∃ t, step { State.reset with faultAddr := 1#32, pending := [.reset] } = .next t ∧
      t.faultAddr ≠ 1#32) ∧
    (∃ t, step { State.reset with faultAddr := 1#32, pending := [hseWr .cmd 0x11] } = .next t ∧
      t.faultAddr ≠ 1#32) ∧
    (∃ t, step refusedState = .next t ∧ t.faultAddr ≠ refusedState.faultAddr) :=
  ⟨steps_to _ (by decide) (by decide), steps_to _ (by decide) (by decide),
    steps_to _ (by decide) (by decide)⟩

/-- One state for each clause: reset, and CLEAR while idle. -/
theorem witness_OnlyClearAndResetClearIgnw :
    (∃ t, step { State.reset with ignw := true, pending := [.reset] } = .next t ∧ t.ignw = false) ∧
    (∃ t, step { State.reset with ignw := true, pending := [hseClear] } = .next t ∧ t.ignw = false) :=
  ⟨steps_to _ (by decide) (by decide), steps_to _ (by decide) (by decide)⟩

theorem witness_OnlyAnAcceptedStartSetsBusy :
    ∃ t, step { job 0x1000 0x2000 4 2 2 with pending := [hseCmd 0x11#32] } = .next t ∧ t.busy = true :=
  steps_to _ (by decide) (by decide)

theorem witness_IdAndCapAreConstant : ∃ t, step busyState = .next t ∧ t.done = true :=
  steps_to _ (by decide) (by decide)

/-- Stores that touch the first input byte and the last output byte of the running operation. -/
theorem witness_HostStoreToRunningBuffersHasNoMeaning :
    (({ busyState with pending := [.store 0x0FFF#32 [7#8, 8#8]] } : State).pending =
        .store 0x0FFF#32 [7#8, 8#8] :: [] ∧ busyState.busy = true ∧ 1 < [7#8, 8#8].length ∧
      busyState.inInput ((0x0FFF#32).toNat + 1) = true ∧ (0x0FFF#32).toNat + 2 ≤ 2 ^ 32 ∧
      touchesWindow busyState.platform (0x0FFF#32).toNat 2 = false) ∧
    (busyState.inOutput ((0x2001#32).toNat + 0) = true ∧
      touchesWindow busyState.platform (0x2001#32).toNat 2 = false) := by decide

/-- A store to the last byte of memory, one past it, and one beside a running operation's buffers. -/
theorem witness_HostStoreWritesItsBytes :
    (({ State.reset with pending := [.store 0xFFFFFFFF#32 [7#8]] } : State).pending =
        .store 0xFFFFFFFF#32 [7#8] :: [] ∧ State.reset.busy = false ∧
      (0xFFFFFFFF#32).toNat + [7#8].length ≤ 2 ^ 32 ∧
      touchesWindow State.reset.platform (0xFFFFFFFF#32).toNat 1 = false ∧
      State.reset.mem.wf = true) ∧
    2 ^ 32 < (0xFFFFFFFF#32).toNat + [7#8, 8#8].length ∧
    (busyState.busy = true ∧ busyState.mem.wf = true ∧
      ∀ i, i < 2 → busyState.inInput ((0x0FFE#32).toNat + i) = false ∧
        busyState.inOutput ((0x0FFE#32).toNat + i) = false) := by decide

/-- A load of the last byte before the output and the first one of it; with BUSY = 0 the last byte of
memory; and one past it. -/
theorem witness_HostLoadWhileBusySeesOldOrFinalByte :
    ({ busyState with pending := [.load 0x1FFF#32 2] } : State).pending = .load 0x1FFF#32 2 :: [] ∧
    busyState.busy = true ∧ touchesWindow busyState.platform (0x1FFF#32).toNat 2 = false ∧
    (0x1FFF#32).toNat + 2 ≤ 2 ^ 32 ∧ busyState.inOutput ((0x1FFF#32).toNat + 0) = false ∧
    busyState.inOutput ((0x1FFF#32).toNat + 1) = true ∧
    (({ State.reset with pending := [.load 0xFFFFFFFF#32 1] } : State).pending =
        .load 0xFFFFFFFF#32 1 :: [] ∧ State.reset.busy = false ∧
      touchesWindow State.reset.platform (0xFFFFFFFF#32).toNat 1 = false ∧
      (0xFFFFFFFF#32).toNat + 1 ≤ 2 ^ 32) ∧
    (touchesWindow State.reset.platform (0xFFFFFFFF#32).toNat 2 = false ∧
      2 ^ 32 < (0xFFFFFFFF#32).toNat + 2) := by decide

/-- One operation for each end: completion after a host load, BusError, and reset. -/
theorem witness_FinalByteIsTheOneTheOperationEndsWith :
    (busyState.Inv ∧ busyState.inOutput 0x2001 = true ∧
      ∃ t, Sys2Proof.core.run 1 busyState = .next t ∧ t.busy = false ∧ t.done = true) ∧
    (refusedState.Inv ∧ refusedState.inOutput 0x2000 = true ∧
      ∃ t, Sys2Proof.core.run 1 refusedState = .next t ∧ t.busy = false ∧ t.err = true) ∧
    (({ busyState with pending := [.reset] } : State).Inv ∧
      ∃ t, Sys2Proof.core.run 1 { busyState with pending := [.reset] } = .next t ∧ t.busy = false) ∧
    (∀ m, m < 1 → ∃ x : State, Sys2Proof.core.run m busyState = .next x ∧ x.busy = true) := by
  refine ⟨⟨busyState_inv, by decide, ⟨_, rfl, by decide⟩⟩,
    ⟨refusedState_inv, by decide, ⟨_, rfl, by decide⟩⟩,
    ⟨⟨busyState_inv.status, busyState_inv.run, busyState_inv.contents, busyState_inv.mem⟩,
      ⟨_, rfl, by decide⟩⟩, ?_⟩
  intro m hm
  obtain rfl : m = 0 := by omega
  exact ⟨busyState, rfl, by decide⟩

/-- The platform of reset has an engine window aligned as the map asks. -/
theorem test_initial_platform_wf : Config.initialPlatform.wf = true := by decide

end Sys2Proof.Tests
end

/-!
The constants of the variants: the variant table (`00_scope.md` R2) and the widths of an engine step's
accesses (`20_memory.md` R65).
-/
section
namespace Sys2Proof.Machine

/-! ### The columns and the output bytes of a step (R2) -/

/-- A step takes exactly the columns that the width is a multiple of, so steps tile a row. -/
theorem columns_eq_granularity (v : Variant) : columns v = granularity v := by
  cases v <;> rfl

/-- A 2x2 block gives one output byte, so a step puts out half as many bytes as it takes columns. -/
theorem outBytes_eq_columns_div_two (v : Variant) : outBytes v = columns v / 2 := by
  cases v <;> rfl

/-! ### The widths of a step's accesses (R65) -/

/-- The width in bytes of each read of a step. -/
def readWidth : Variant → Nat
  | .scalar => 1
  | .p32 => 4
  | .p32x2 => 4
  | .p64 => 8
  | .v128 => 16

/-- The last access of a step is its one write: all the output bytes, at the destination. -/
@[simp] theorem getLast?_stepAccesses (v : Variant) (top bot dst : Nat) :
    (stepAccesses v top bot dst).getLast? = some (dst, outBytes v) := by
  cases v <;> rfl

/-- Every access before the write is a read, and all of them have the variant's one width. -/
theorem width_of_mem_dropLast_stepAccesses (v : Variant) (top bot dst : Nat) :
    ∀ q ∈ (stepAccesses v top bot dst).dropLast, q.2 = readWidth v := by
  cases v <;> simp [stepAccesses, readWidth]

/-- Settles O22: the columns of R2 are read off the definitions, and the widths of R65 come from the
write being a step's last access and the reads sharing one width. -/
theorem variantTable : Obligations.VariantTable := by
  unfold Obligations.VariantTable
  refine ⟨by decide, by decide, by decide,
    fun v => ⟨columns_eq_granularity v, outBytes_eq_columns_div_two v⟩,
    fun v top bot dst => ⟨?write, fun q hq => ?read⟩⟩
  case write =>
    rw [getLast?_stepAccesses]
    cases v <;> rfl
  case read =>
    rw [width_of_mem_dropLast_stepAccesses v top bot dst q hq]
    cases v <;> rfl

end Sys2Proof.Machine
end

/-!
What an instruction, an engine turn and a step can do, each said once: `InstrEffect`, `TurnEffect` and
`StepEffect` list the possible outcomes, and `instrEffect_of_exec`, `turnEffect_engineTurn` and
`stepEffect_of_step` say that there are no others.
-/
section
namespace Sys2Proof.Machine

open Sys2Proof

/-! ### What an instruction can do -/

/-- A word that decodes to a command other than an illegal one is one of the seven (R97). -/
theorem mem_legalWords_of_decodeCommand {w : Word} {c : Command} (h : decodeCommand w = c)
    (hc : c ≠ .illegal w) : w ∈ legalWords := by
  by_contra hw
  exact hc (h.symm.trans (Laws.RoundTrip.decodeCommand_illegal (by simpa using hw)))

theorem decodeCommand_nopWord : decodeCommand 0x0#32 = .nop := by decide

theorem decodeCommand_clearWord : decodeCommand 0x2#32 = .clear := by decide

theorem decodeCommand_startWord (v : Variant) : decodeCommand (startWord v) = .start v := by
  cases v <;> decide

/-- The seven words are NOP's, the five of START and CLEAR's (R96). -/
theorem legalWords_eq :
    legalWords = 0x0#32 :: ([.scalar, .p32, .p32x2, .p64, .v128].map startWord ++ [0x2#32]) := rfl

/-- The one word of START.<variant> (R96). -/
theorem eq_startWord_of_decodeCommand {w : Word} {v : Variant} (h : decodeCommand w = .start v) :
    w = startWord v := by
  have hw := mem_legalWords_of_decodeCommand h (by simp)
  simp only [legalWords_eq, List.mem_cons, List.mem_append, List.mem_map, List.not_mem_nil,
    or_false] at hw
  rcases hw with rfl | ⟨v', -, rfl⟩ | rfl
  · cases decodeCommand_nopWord.symm.trans h
  · rw [decodeCommand_startWord, Command.start.injEq] at h
    rw [h]
  · cases decodeCommand_clearWord.symm.trans h

/-- The one word of CLEAR (R96). -/
theorem eq_clearWord_of_decodeCommand {w : Word} (h : decodeCommand w = .clear) :
    w = 0x2#32 := by
  have hw := mem_legalWords_of_decodeCommand h (by simp)
  simp only [legalWords_eq, List.mem_cons, List.mem_append, List.mem_map, List.not_mem_nil,
    or_false] at hw
  rcases hw with rfl | ⟨v', -, rfl⟩ | rfl
  · cases decodeCommand_nopWord.symm.trans h
  · cases (decodeCommand_startWord v').symm.trans h
  · rfl

/-- Everything that an instruction `i` which leads on can do to a state. -/
inductive InstrEffect (i : Instr) (s : State) : State → Prop
  | nothing : InstrEffect i s s
  | respond (w : Word) : InstrEffect i s (s.respond w)
  | writeCtrl (b : Bool) : InstrEffect i s { s with ctrlIE := b }
  | ignored (hb : s.busy = true) : InstrEffect i s s.ignoreWrite
  | configure (src dst width height dstLen : Word) (hb : s.busy = false) :
    InstrEffect i s
      { s with src := src, dst := dst, width := width, height := height, dstLen := dstLen }
  | start (v : Variant) (hi : i = startInstr v ∨ i = .wrCmd (startWord v)) (hb : s.busy = false) :
    InstrEffect i s (s.startOperation v)
  | clear (hi : i = .clear ∨ i = .wrCmd 0x2#32) (hb : s.busy = false) :
    InstrEffect i s s.clearStatus
  | illegal (hb : s.busy = false) : InstrEffect i s (s.raiseError .illegalCommand)

/-- Under the busy-lock only the effect while BUSY = 0 is left to look at. -/
theorem InstrEffect.of_unlessBusy {i : Instr} {s t : State}
    (h : s.busy = false → InstrEffect i s t) : InstrEffect i s (s.unlessBusy t) := by
  rcases unlessBusy_cases s t with ⟨hb, e⟩ | ⟨hb, e⟩
  · rw [e]; exact h hb
  · rw [e]; exact .ignored hb

/-- START's effect, whichever of its two instructions gives it. -/
theorem InstrEffect.of_start {i : Instr} {s t : State} {v : Variant}
    (hi : i = startInstr v ∨ i = .wrCmd (startWord v))
    (h : exec (startInstr v) s = .next t) : InstrEffect i s t := by
  have e : t = s.unlessBusy (s.startOperation v) := by
    cases v <;> exact (Host.Outcome.next.inj h).symm
  rw [e]
  exact .of_unlessBusy (.start v hi)

/-- A write of CMD does what the command that its data decodes to does (R124, R125). -/
theorem instrEffect_of_execWrCmd {w : Word} {s t : State} (h : execWrCmd w s = .next t) :
    InstrEffect (.wrCmd w) s t := by
  unfold execWrCmd at h
  cases hc : decodeCommand w with
  | nop =>
    rw [hc] at h
    obtain rfl := Host.Outcome.next.inj h
    exact .nothing
  | start v =>
    refine .of_start (.inr (by rw [eq_startWord_of_decodeCommand hc])) (v := v) ?_
    rw [hc] at h
    cases v <;> exact h
  | clear =>
    rw [hc] at h
    obtain rfl := Host.Outcome.next.inj h
    exact .of_unlessBusy (.clear (.inr (by rw [eq_clearWord_of_decodeCommand hc])))
  | illegal w' =>
    rw [hc] at h
    obtain rfl := Host.Outcome.next.inj h
    exact .of_unlessBusy .illegal

/-- Every instruction that leads on does one of the things of `InstrEffect`. -/
theorem instrEffect_of_exec {i : Instr} {s t : State} (h : exec i s = .next t) :
    InstrEffect i s t := by
  cases i with
  | rdId | rdCap | rdCtrl | rdCmd | rdStatus | rdSrc | rdDst | rdWidth | rdHeight | rdDstLen
  | rdProgress | rdFaultAddr | rdNone =>
    obtain rfl := Host.Outcome.next.inj h
    exact .respond _
  | wrId | wrCap | wrStatus | wrProgress | wrFaultAddr | wrNone | nop =>
    obtain rfl := Host.Outcome.next.inj h
    exact .nothing
  | wrCtrl =>
    obtain rfl := Host.Outcome.next.inj h
    exact .writeCtrl _
  | wrSrc | wrDst | wrWidth | wrHeight | wrDstLen =>
    obtain rfl := Host.Outcome.next.inj h
    exact .of_unlessBusy (.configure _ _ _ _ _)
  | wrCmd w => exact instrEffect_of_execWrCmd h
  | mmioMisaligned => cases h
  | startScalar => exact .of_start (v := .scalar) (.inl rfl) h
  | startP32 => exact .of_start (v := .p32) (.inl rfl) h
  | startP32x2 => exact .of_start (v := .p32x2) (.inl rfl) h
  | startP64 => exact .of_start (v := .p64) (.inl rfl) h
  | startV128 => exact .of_start (v := .v128) (.inl rfl) h
  | clear =>
    obtain rfl := Host.Outcome.next.inj h
    exact .of_unlessBusy (.clear (.inl rfl))
  | cmdIllegal =>
    obtain rfl := Host.Outcome.next.inj h
    exact .of_unlessBusy .illegal

/-! ### What the engine's turn can do -/

/-- Memory after the step at cursor (y, k): the group's output bytes written. -/
def State.groupMem (s : State) (y k : Nat) : Memory :=
  s.mem.writeLE (s.dstAddr s.lastVar y k) (outBytes s.lastVar)
    (stepOutput s.mem s.lastVar (s.topAddr s.lastVar y k) (s.botAddr s.lastVar y k))

/-- Everything that the engine's turn can do to a state. -/
inductive TurnEffect (s : State) : State → Prop
  | idle (hp : s.phase = .idle) : TurnEffect s s
  | busError (y k addr : Nat) (hp : s.phase = .run y k) : TurnEffect s (s.busError addr)
  | last (y k : Nat) (hp : s.phase = .run y k) (ha : s.stepAdmitted y k)
    (hr : s.nextRow s.lastVar y k = s.opH / 2) :
    TurnEffect s
      { s with
        mem := s.groupMem y k
        progress := s.progress + BitVec.ofNat 32 (outBytes s.lastVar)
        phase := .idle
        done := true }
  | next (y k : Nat) (hp : s.phase = .run y k) (ha : s.stepAdmitted y k)
    (hr : s.nextRow s.lastVar y k ≠ s.opH / 2) :
    TurnEffect s
      { s with
        mem := s.groupMem y k
        progress := s.progress + BitVec.ofNat 32 (outBytes s.lastVar)
        phase := .run (s.nextRow s.lastVar y k) (s.nextGroup s.lastVar k) }

theorem turnEffect_engineTurn (s : State) : TurnEffect s s.engineTurn := by
  rcases engineTurn_cases s with ⟨hp, e⟩ | ⟨y, k, hp, e⟩
  · rw [e]; exact .idle hp
  rcases engineStep_cases s y k with ⟨addr, -, e'⟩ | ⟨ha, e'⟩
  · rw [e, e']; exact .busError y k addr hp
  rw [e, e']
  rcases advance_cases { s with mem := s.groupMem y k } s.lastVar y k with ⟨hr, e''⟩ | ⟨hr, e''⟩
  · exact e'' ▸ .last y k hp ha hr
  · exact e'' ▸ .next y k hp ha hr

/-! ### What a step can do -/

/-- Everything that a step can do to a state. -/
inductive StepEffect (s : State) : State → Prop
  | instr {r : Request} {l : List Event} {t : State}
    (hf : s.fetch = some (r, { s with pending := l }))
    (hi : InstrEffect (decode r) { s with pending := l } t) : StepEffect s t
  | load (l : List Event) (bytes : List Byte) (n : Nat) :
    StepEffect s { s with pending := l, loadData := bytes, draws := n }
  | store (l : List Event) (a : Nat) (bytes : List Byte)
    (hspace : a + bytes.length ≤ Config.addrSpace)
    (hfree : ¬ (s.busy = true ∧ ∃ i, i < bytes.length ∧
      (s.inInput (a + i) = true ∨ s.inOutput (a + i) = true))) :
    StepEffect s { s with pending := l, mem := s.mem.writeBytes a bytes }
  | reset (l : List Event) (hp : s.pending = .reset :: l) :
    StepEffect s { s with pending := l }.resetEngine
  | wait (w : Word) (l : List Event) : StepEffect s { s.respond w with pending := l }
  | turn {t : State} (l : List Event) (hp : s.pending = [] ∨ ∃ rest, s.pending = .engine :: rest)
    (ht : TurnEffect s t) : StepEffect s { t with pending := l }

/-- Every step that leads on does one of the things of `StepEffect`. -/
theorem stepEffect_of_step {s t : State} (h : step s = .next t) : StepEffect s t := by
  rcases step_cases s with ⟨r, u, hf, e⟩ | ⟨a, n, l, hp, -, e⟩ | ⟨a, bs, l, hp, -, e⟩ |
    ⟨l, hp, e⟩ | ⟨l, hp, e⟩ | ⟨l, hp, e⟩ | ⟨hp, e⟩ <;> rw [e] at h
  · obtain ⟨-, l, -, rfl, -⟩ := fetch_eq_some_iff.mp hf
    exact .instr hf (instrEffect_of_exec h)
  · obtain ⟨-, rfl⟩ := hostLoad_eq_next_iff.mp h
    exact .load l _ _
  · obtain ⟨hspace, hfree, rfl⟩ := hostStore_eq_next_iff.mp h
    exact .store l _ bs hspace hfree
  · obtain rfl := Host.Outcome.next.inj h
    exact .reset l hp
  · obtain rfl := Host.Outcome.next.inj h
    rw [engineTurn_pending]
    exact .turn l (.inr ⟨l, hp⟩) (turnEffect_engineTurn s)
  · obtain rfl := Host.Outcome.next.inj h
    rcases waitTurn_cases { s with pending := l } with e' | e' <;> rw [e'] <;> exact .wait _ _
  · obtain rfl := Host.Outcome.next.inj h
    exact .turn s.engineTurn.pending (.inl hp) (turnEffect_engineTurn s)

end Sys2Proof.Machine
end

/-!
Who writes what (`10_state.md` R25 to R39) and the invariants of STATUS (R29), each read off the list of
what a step can do.
-/
section
namespace Sys2Proof.Machine

open Sys2Proof

/-! ### Who writes what -/

@[simp] theorem startOperation_platform (s : State) (v : Variant) :
    (s.startOperation v).platform = s.platform := by
  rcases startOperation_cases s v with ⟨e, -, h⟩ | ⟨-, -, h⟩ | ⟨-, -, h⟩ <;> rw [h] <;> rfl

@[simp] theorem startOperation_ignw (s : State) (v : Variant) :
    (s.startOperation v).ignw = s.ignw := by
  rcases startOperation_cases s v with ⟨e, -, h⟩ | ⟨-, -, h⟩ | ⟨-, -, h⟩ <;> rw [h] <;> rfl

@[simp] theorem startOperation_progress (s : State) (v : Variant) :
    (s.startOperation v).progress = 0#32 := by
  rcases startOperation_cases s v with ⟨e, -, h⟩ | ⟨-, -, h⟩ | ⟨-, -, h⟩ <;> rw [h] <;> rfl

@[simp] theorem startOperation_faultAddr (s : State) (v : Variant) :
    (s.startOperation v).faultAddr = 0#32 := by
  rcases startOperation_cases s v with ⟨e, -, h⟩ | ⟨-, -, h⟩ | ⟨-, -, h⟩ <;> rw [h] <;> rfl

/-- A START makes the engine BUSY only where it is accepted with N > 0 (R127). -/
theorem startOperation_busy {s : State} {v : Variant} (hb : s.busy = false)
    (h : (s.startOperation v).busy = true) :
    startAccepted v s ∧ 0 < s.opN ∧ (s.startOperation v).lastVar = v ∧
      (s.startOperation v).phase = .run 0 0 := by
  rcases startOperation_cases s v with ⟨e, -, h'⟩ | ⟨-, -, h'⟩ | ⟨hc, hN, h'⟩
  · rw [h'] at h; cases h
  · rw [h'] at h; exact absurd (h.symm.trans hb) (by simp)
  · rw [h']; exact ⟨startCheck_eq_none_iff.mp hc, hN, rfl, rfl⟩

/-- Settles O52: of all that a step can do, only reset, START and the two completed engine steps do not
leave PROGRESS as it is. -/
theorem onlyResetStartAndStepsWriteProgress : Obligations.OnlyResetStartAndStepsWriteProgress := by
  intro s t h hne
  cases stepEffect_of_step h with
  | reset l hp => exact .inl ⟨l, hp⟩
  | instr hf hi =>
    cases hi with
    | start v hi hb => exact .inr (.inl ⟨hb, startOperation_progress _ v, _, _, v, hf, hi⟩)
    | _ => exact absurd rfl hne
  | turn l hp ht =>
    cases ht with
    | last y k hr => exact .inr (.inr ⟨busy_run hr, rfl, hp⟩)
    | next y k hr => exact .inr (.inr ⟨busy_run hr, rfl, hp⟩)
    | _ => exact absurd rfl hne
  | _ => exact absurd rfl hne

/-- Settles O53: of all that a step can do, only reset, START and BusError do not leave FAULT_ADDR as it
is. -/
theorem onlyBusErrorStartAndResetWriteFaultAddr :
    Obligations.OnlyBusErrorStartAndResetWriteFaultAddr := by
  intro s t h hne
  cases stepEffect_of_step h with
  | reset l hp => exact .inl ⟨l, hp⟩
  | instr hf hi =>
    cases hi with
    | start v hi hb => exact .inr (.inl ⟨hb, startOperation_faultAddr _ v, _, _, v, hf, hi⟩)
    | _ => exact absurd rfl hne
  | turn l hp ht =>
    cases ht with
    | busError y k addr hr => exact .inr (.inr ⟨busy_run hr, rfl, rfl, hp⟩)
    | _ => exact absurd rfl hne
  | _ => exact absurd rfl hne

/-- Settles O54: IGNW falls, so the step does not keep it; an ignored write raises it, START keeps it, and
only CLEAR and reset are left. -/
theorem onlyClearAndResetClearIgnw : Obligations.OnlyClearAndResetClearIgnw := by
  intro s t h hs ht
  have changed : t.ignw ≠ s.ignw := by simp [hs, ht]
  cases stepEffect_of_step h with
  | reset l hp => exact .inl ⟨l, hp⟩
  | instr hf hi =>
    cases hi with
    | clear hi hb => exact .inr ⟨hb, _, _, hf, hi⟩
    | start v => exact absurd (startOperation_ignw _ v) changed
    | ignored => cases ht
    | _ => exact absurd rfl changed
  | turn l hp hturn => cases hturn <;> exact absurd rfl changed
  | _ => exact absurd rfl changed

/-- Settles O55: BUSY rises, so the step does not keep the phase; errors, reset and the last engine step
leave IDLE, an engine step needs RUN before it, and only START is left. -/
theorem onlyAnAcceptedStartSetsBusy : Obligations.OnlyAnAcceptedStartSetsBusy := by
  intro s t h hs ht
  have changed : t.busy ≠ s.busy := by simp [hs, ht]
  cases stepEffect_of_step h with
  | instr hf hi =>
    cases hi with
    | start v hi hb => exact ⟨_, _, v, hf, hi, startOperation_busy hb ht⟩
    | illegal => cases ht
    | _ => exact absurd rfl changed
  | turn l hp hturn =>
    cases hturn with
    | idle => exact absurd rfl changed
    | busError => cases ht
    | last => cases ht
    | next y k hr => exact absurd (busy_run hr).symm changed
  | reset => cases ht
  | _ => exact absurd rfl changed

/-- No step changes the platform (R6). -/
theorem step_platform {s t : State} (h : step s = .next t) : t.platform = s.platform := by
  cases stepEffect_of_step h with
  | instr hf hi =>
    cases hi with
    | start v => exact startOperation_platform _ v
    | _ => rfl
  | turn l hp ht => cases ht <;> rfl
  | _ => rfl

/-- Settles O56: ID is a constant, and CAP is computed from the platform. -/
theorem idAndCapAreConstant : Obligations.IdAndCapAreConstant := by
  intro s t h
  have hp := step_platform h
  exact ⟨hp, rfl, by simp only [State.readReg, hp]⟩

/-- The parameters of the operation and its variant (R39), with the model's record of memory at START,
are the same in both states. -/
def SameOperation (s t : State) : Prop :=
  t.src = s.src ∧ t.dst = s.dst ∧ t.width = s.width ∧ t.height = s.height ∧ t.dstLen = s.dstLen ∧
  t.lastVar = s.lastVar ∧ t.memAtStart = s.memAtStart

theorem SameOperation.refl (s : State) : SameOperation s s := ⟨rfl, rfl, rfl, rfl, rfl, rfl, rfl⟩

/-- Settles O50: configuration writes and START act only while idle, and nothing else but reset writes
the parameters. -/
theorem parametersAreStableWhileBusy : Obligations.ParametersAreStableWhileBusy := by
  intro s t hb hr h
  show SameOperation s t
  cases stepEffect_of_step h with
  | reset l hp => exact absurd hp (hr l)
  | instr hf hi =>
    have not_idle : s.busy ≠ false := by simp [hb]
    cases hi with
    | configure _ _ _ _ _ hb' => exact absurd hb' not_idle
    | start v hi hb' => exact absurd hb' not_idle
    | _ => exact .refl s
  | turn l hp ht => cases ht <;> exact .refl s
  | _ => exact .refl s

/-! ### The invariants of STATUS (R29) -/

theorem statusInv_raiseError (s : State) (e : EngineError) : (s.raiseError e).StatusInv := by
  simp [State.StatusInv]

theorem statusInv_clearStatus (s : State) : s.clearStatus.StatusInv := by
  simp [State.StatusInv]

/-- A START decoded while idle leaves the invariants of STATUS true, whatever they were before: each of
its outcomes writes DONE, ERR and ERRCODE. -/
theorem statusInv_startOperation {s : State} (v : Variant) (hb : s.busy = false) :
    (s.startOperation v).StatusInv := by
  rcases startOperation_cases s v with ⟨e, -, h⟩ | ⟨-, -, h⟩ | ⟨-, -, h⟩ <;> rw [h]
  · exact statusInv_raiseError _ e
  · exact ⟨fun hb' => absurd (hb.symm.trans hb') (by simp), by simp, by simp⟩
  · simp [State.StatusInv]

theorem statusInv_of_instrEffect {i : Instr} {s t : State} (hs : s.StatusInv)
    (h : InstrEffect i s t) : t.StatusInv := by
  cases h with
  | start v hi hb => exact statusInv_startOperation v hb
  | clear => exact statusInv_clearStatus s
  | illegal => exact statusInv_raiseError s _
  | _ => exact hs

theorem statusInv_of_turnEffect {s t : State} (hs : s.StatusInv) (h : TurnEffect s t) :
    t.StatusInv := by
  cases h with
  | idle => exact hs
  | busError y k addr => exact statusInv_raiseError { s with faultAddr := _ } _
  | last y k hp =>
    obtain ⟨hrun, -, -⟩ := hs
    obtain ⟨-, herr, hcode⟩ := hrun (busy_run hp)
    simp [State.StatusInv, herr, hcode]
  | next y k hp =>
    obtain ⟨hrun, hexcl, hcode⟩ := hs
    exact ⟨fun _ => hrun (busy_run hp), hexcl, hcode⟩

/-- Settles O40: an instruction and an engine turn keep the invariants of STATUS, reset makes them true,
and no other event writes STATUS. -/
theorem stepKeepsStatusInvariants : Obligations.StepKeepsStatusInvariants := by
  intro s t hs h
  cases stepEffect_of_step h with
  | @instr r l t hf hi => exact statusInv_of_instrEffect (s := { s with pending := l }) hs hi
  | reset => simp [State.StatusInv]
  | @turn t l hp ht => exact show t.StatusInv from statusInv_of_turnEffect hs ht
  | _ => exact hs

end Sys2Proof.Machine
end

/-!
The registers as a host reads them (`10_state.md` R21 to R29, R41), and the turns of the engine and of
`hse.wait` (`40_control.md` R131, `30_encoding.md` R100).
-/
section
namespace Sys2Proof.Machine

open Sys2Proof

/-! ### STATUS and CTRL, bit by bit -/

@[simp] theorem statusWord_getLsbD_busy (s : State) : s.statusWord.getLsbD 0 = s.busy := by
  simp only [State.statusWord, BitVec.getLsbD_setWidth, BitVec.getLsbD_append]
  simp

@[simp] theorem statusWord_getLsbD_done (s : State) : s.statusWord.getLsbD 1 = s.done := by
  simp only [State.statusWord, BitVec.getLsbD_setWidth, BitVec.getLsbD_append]
  simp

@[simp] theorem statusWord_getLsbD_err (s : State) : s.statusWord.getLsbD 2 = s.err := by
  simp only [State.statusWord, BitVec.getLsbD_setWidth, BitVec.getLsbD_append]
  simp

@[simp] theorem statusWord_getLsbD_ignw (s : State) : s.statusWord.getLsbD 3 = s.ignw := by
  simp only [State.statusWord, BitVec.getLsbD_setWidth, BitVec.getLsbD_append]
  simp

/-- Settles O9: the one-bit fields by the lemmas above, and each wider one by taking the concatenation
of R29's table apart up to it. Past bit 18 the zero extension is all there is. -/
theorem statusBitsStandWhereTheMapPutsThem : Obligations.StatusBitsStandWhereTheMapPutsThem := by
  intro s
  refine ⟨statusWord_getLsbD_busy s, statusWord_getLsbD_done s, statusWord_getLsbD_err s,
    statusWord_getLsbD_ignw s, ?errcode, ?lastVar, ?reserved4, ?reserved12, ?reserved19⟩ <;>
    unfold State.statusWord
  case reserved19 =>
    ext i hi
    simp
  all_goals
    rw [BitVec.extractLsb'_setWidth_of_le (by omega)]
    simp (disch := omega) only [BitVec.extractLsb'_append_eq_of_le,
      BitVec.extractLsb'_append_eq_of_add_le, BitVec.extractLsb'_eq_self, BitVec.extractLsb'_zero,
      Nat.reduceSub]

/-! ### The registers -/

/-- Settles O10: the answer to the read is 0 whatever the state, and the write leads back to the state
itself. -/
theorem unnamedOffsetsReadZeroAndIgnoreWrites :
    Obligations.UnnamedOffsetsReadZeroAndIgnoreWrites := by
  intro reg data s _
  have read : exec (.rdNone reg) s = .next (s.respond 0#32) := rfl
  have write : exec (.wrNone reg data) s = .next s := rfl
  exact ⟨⟨read, fun _ => rfl⟩, write, fun _ => rfl⟩

/-- Every register but the two constants reads 0 after reset (R21). -/
theorem readReg_reset {r : Reg} (hid : r ≠ .id) (hcap : r ≠ .cap) : State.reset.readReg r = 0#32 := by
  cases r with
  | id => exact absurd rfl hid
  | cap => exact absurd rfl hcap
  | status => decide
  | _ => rfl

/-- Settles O25: ID is the constant, CAP the one of the initial platform, and the others are 0 by
`readReg_reset`. -/
theorem resetValues : Obligations.ResetValues :=
  ⟨rfl, by decide, fun _ => readReg_reset, rfl, rfl⟩

@[simp] theorem readReg_ctrl_getLsbD (s : State) : (s.readReg .ctrl).getLsbD 0 = s.ctrlIE := by
  simp [State.readReg]

/-- Settles O27: the bits that a host reads are the fields that the level is computed from. -/
theorem irqIsALevelOfCtrlAndStatus : Obligations.IrqIsALevelOfCtrlAndStatus := by
  intro s line
  constructor
  · rw [readReg_ctrl_getLsbD, show s.readReg .status = s.statusWord from rfl,
      statusWord_getLsbD_done, statusWord_getLsbD_err]
    rfl
  · rfl

/-! ### The turn of the engine and of `hse.wait` -/

theorem engineTurn_of_not_busy {s : State} (h : s.busy = false) : s.engineTurn = s :=
  engineTurns_idle (busy_eq_false_iff.mp h) 1

theorem step_of_pending_nil {s : State} (h : s.pending = []) : step s = .next s.engineTurn := by
  simp [step, State.fetch, State.otherTurn, h]

theorem step_of_pending_engine {s : State} {rest : List Event} (h : s.pending = .engine :: rest) :
    step s = .next { s with pending := rest }.engineTurn := by
  simp [step, State.fetch, State.otherTurn, h]

theorem step_of_pending_wait {s : State} {rest : List Event} (h : s.pending = .wait :: rest) :
    step s = .next { s with pending := rest }.waitTurn := by
  simp [step, State.fetch, State.otherTurn, h]

/-- One poll of `hse.wait`: STATUS is read, and while BUSY = 1 the engine has the next turn (R100). -/
theorem waitTurn_eq (s : State) :
    s.waitTurn =
      { s with
        readData := s.statusWord
        pending := if s.busy then .engine :: .wait :: s.pending else s.pending } := by
  have hbit : (s.respond (s.readReg .status)).readData.getLsbD 0 = s.busy := statusWord_getLsbD_busy s
  unfold State.waitTurn
  simp only [hbit]
  cases s.busy <;> rfl

theorem step_of_engineTurnsNext_one {s : State} {rest : List Event} (h : s.engineTurnsNext 1 rest) :
    step s = .next { s with pending := rest }.engineTurn := by
  rcases h with ⟨hp, rfl⟩ | hp
  · rw [step_of_pending_nil hp, ← hp]
  · exact step_of_pending_engine hp

/-- Settles O35: BUSY shows the phase, an idle turn is the identity, and each of the three heads of the
schedule has its equation for `step`. -/
theorem engineStepsOnlyInRun : Obligations.EngineStepsOnlyInRun := by
  intro s
  refine ⟨?_, engineTurn_of_not_busy, fun hb hp => ?_, fun rest =>
    ⟨step_of_engineTurnsNext_one, fun hb hp => ?_, fun hp => ?_⟩⟩
  · rw [ne_eq, ← busy_eq_false_iff, Bool.not_eq_false]
  · rw [step_of_pending_nil hp, engineTurn_of_not_busy hb]
  · rw [step_of_pending_engine hp, engineTurn_of_not_busy (s := { s with pending := rest }) hb]
  · rw [step_of_pending_wait hp, waitTurn_eq]
    rfl

end Sys2Proof.Machine
end

/-!
The five datapaths byte by byte: no slot or lane of the sums carries (`42_packed_word.md` R164,
`43_vector_simd.md` R192), the folds and the shuffle pack the averages in order, and so every output byte
of a step is the rounded average of its 2x2 block (`44_equivalence.md` R210).
-/
section
namespace Sys2Proof.Machine

open Sys2Proof

/-! ### 16-bit slots -/

/-- Slot `j` of a word: bits [16j+15:16j] (R160); of a vector it is the 16-bit lane `j`. -/
def slot {N : Nat} (w : BitVec N) (j : Nat) : BitVec 16 := w.extractLsb' (16 * j) 16

/-- Byte `i` of a word: bits [8i+7:8i]. -/
def byteOf {N : Nat} (w : BitVec N) (i : Nat) : Byte := w.extractLsb' (8 * i) 8

theorem slot_toNat {N : Nat} (w : BitVec N) (j : Nat) :
    (slot w j).toNat = w.toNat / 2 ^ (16 * j) % 2 ^ 16 := by
  simp [slot, Nat.shiftRight_eq_div_pow]

/-- The whole slots of `w` are the numbers `f 0`, `f 1`, …. -/
def SlotsAre {N : Nat} (w : BitVec N) (f : Nat → Nat) : Prop :=
  ∀ j, 16 * j + 16 ≤ N → (slot w j).toNat = f j

/-- `add` adds slots one by one, as long as no sum of two slots carries. -/
def AddsSlots {N : Nat} (add : BitVec N → BitVec N → BitVec N) : Prop :=
  ∀ {x y : BitVec N} {f g : Nat → Nat}, SlotsAre x f → SlotsAre y g → (∀ i, f i + g i < 2 ^ 16) →
    SlotsAre (add x y) fun j => f j + g j

/-- Where no slot below `j` carries, the bits below slot `j` do not carry into it. -/
theorem toNat_mod_add_lt {N : Nat} {x y : BitVec N} :
    ∀ {j : Nat}, (∀ i, i < j → (slot x i).toNat + (slot y i).toNat < 2 ^ 16) →
      x.toNat % 2 ^ (16 * j) + y.toNat % 2 ^ (16 * j) < 2 ^ (16 * j)
  | 0, _ => by simp [Nat.mod_one]
  | j + 1, h => by
    have ih := toNat_mod_add_lt (j := j) (fun i hi => h i (by omega))
    have hj := h j (by omega)
    rw [slot_toNat, slot_toNat] at hj
    have hmul := Nat.mul_le_mul_left (2 ^ (16 * j)) (Nat.succ_le_of_lt hj)
    rw [show 16 * (j + 1) = 16 * j + 16 by ring, Nat.pow_add, Nat.mod_mul, Nat.mod_mul]
    linarith

/-- The addition of words adds slots one by one: without a carry no slot reaches into the next. -/
theorem addsSlots_add {N : Nat} : AddsSlots (N := N) (· + ·) := by
  intro x y f g hx hy hfg j hj
  show (slot (x + y) j).toNat = f j + g j
  have hsum (i : Nat) (hi : i ≤ j) : (slot x i).toNat + (slot y i).toNat < 2 ^ 16 := by
    rw [hx i (by omega), hy i (by omega)]
    exact hfg i
  have hlow := toNat_mod_add_lt (x := x) (y := y) (fun i hi => hsum i (Nat.le_of_lt hi))
  have htop := hsum j (Nat.le_refl j)
  rw [← hx j hj, ← hy j hj]
  obtain ⟨r, rfl⟩ := Nat.exists_eq_add_of_le hj
  simp only [slot_toNat] at htop ⊢
  rw [BitVec.toNat_add, Nat.pow_add, Nat.pow_add, Nat.mul_assoc, Nat.mod_mul_right_div_self,
    Nat.mod_mul_right_mod, Nat.add_div_eq_of_add_mod_lt hlow, Nat.add_mod_of_add_mod_lt htop]

/-- `M` keeps the low byte of every whole 16-bit slot and clears the high byte (R160, R190). -/
def KeepsLowBytes {N : Nat} (M : BitVec N) : Prop :=
  ∀ j b, 16 * j + 16 ≤ N → b < 16 → M.getLsbD (16 * j + b) = decide (b < 8)

theorem keepsLowBytes_of_fin {N : Nat} {M : BitVec N}
    (h : ∀ j : Fin (N / 16), ∀ b : Fin 16, M.getLsbD (16 * j + b) = decide ((b : Nat) < 8)) :
    KeepsLowBytes M :=
  fun j b hj hb => h ⟨j, by omega⟩ ⟨b, hb⟩

theorem keepsLowBytes_M32 : KeepsLowBytes M32 := keepsLowBytes_of_fin (by decide)

theorem keepsLowBytes_M64 : KeepsLowBytes M64 := keepsLowBytes_of_fin (by decide)

theorem keepsLowBytes_M128 : KeepsLowBytes M128 := keepsLowBytes_of_fin (by decide)

/-- A masked slot is its own low byte. -/
theorem slot_and_mask {N : Nat} {M : BitVec N} (hM : KeepsLowBytes M) (w : BitVec N) {j : Nat}
    (hj : 16 * j + 16 ≤ N) : slot (w &&& M) j = (byteOf w (2 * j)).setWidth 16 := by
  ext b hb
  simp only [slot, byteOf, BitVec.getElem_extractLsb', BitVec.getLsbD_and, hM j b hj hb,
    BitVec.getElem_setWidth, BitVec.getLsbD_extractLsb']
  rw [Bool.and_comm, show 8 * (2 * j) = 16 * j by ring]

theorem byteOf_ushiftRight {N : Nat} (w : BitVec N) (n i : Nat) :
    byteOf (w >>> n) i = w.extractLsb' (8 * i + n) 8 := by
  ext b hb
  simp only [byteOf, BitVec.getElem_extractLsb', BitVec.getLsbD_ushiftRight]
  congr 1
  omega

theorem toNat_setWidth_byte (b : Byte) : (b.setWidth 16).toNat = b.toNat := by
  have := b.isLt
  simp
  omega

/-! ### LaneSum and Extract -/

theorem slotsAre_splitEven {N : Nat} {M : BitVec N} (hM : KeepsLowBytes M) (w : BitVec N) :
    SlotsAre (splitEven M w) fun j => (byteOf w (2 * j)).toNat := by
  intro j hj
  rw [splitEven, slot_and_mask hM w hj, toNat_setWidth_byte]

theorem slotsAre_splitOdd {N : Nat} {M : BitVec N} (hM : KeepsLowBytes M) (w : BitVec N) :
    SlotsAre (splitOdd M w) fun j => (byteOf w (2 * j + 1)).toNat := by
  intro j hj
  rw [splitOdd, slot_and_mask hM _ hj, byteOf_ushiftRight, toNat_setWidth_byte]
  rfl

/-- The sum of a slot's four bytes and the rounding bias, on naturals (R164, R192). -/
def blockSum {N : Nat} (T B : BitVec N) (j : Nat) : Nat :=
  (byteOf T (2 * j)).toNat + (byteOf T (2 * j + 1)).toNat + (byteOf B (2 * j)).toNat +
    (byteOf B (2 * j + 1)).toNat + 2

/-- Five words of slots, the split bytes of two rows and the bias, are summed without a carry: four bytes
and 2 are at most 1022 (R164, R192). -/
theorem AddsSlots.blockSum {N : Nat} {add : BitVec N → BitVec N → BitVec N} (hadd : AddsSlots add)
    {T B evenT oddT evenB oddB bias : BitVec N}
    (hTe : SlotsAre evenT fun j => (byteOf T (2 * j)).toNat)
    (hTo : SlotsAre oddT fun j => (byteOf T (2 * j + 1)).toNat)
    (hBe : SlotsAre evenB fun j => (byteOf B (2 * j)).toNat)
    (hBo : SlotsAre oddB fun j => (byteOf B (2 * j + 1)).toNat)
    (hbias : SlotsAre bias fun _ => 2) :
    SlotsAre (add (add (add (add evenT oddT) evenB) oddB) bias) (blockSum T B) := by
  have bound (w : BitVec N) (i : Nat) : (byteOf w i).toNat < 2 ^ 8 := (byteOf w i).isLt
  refine hadd (hadd (hadd (hadd hTe hTo fun i => ?_) hBe fun i => ?_) hBo fun i => ?_) hbias
    fun i => ?_
  all_goals
    have := bound T (2 * i)
    have := bound T (2 * i + 1)
    have := bound B (2 * i)
    have := bound B (2 * i + 1)
    omega

/-- No carry between the slots of LaneSum: each is the exact sum of its four bytes and the bias
(R164). -/
theorem slotsAre_laneSum {N : Nat} {M bias : BitVec N} (hM : KeepsLowBytes M)
    (hbias : SlotsAre bias fun _ => 2) (T B : BitVec N) :
    SlotsAre (laneSum M bias T B) (blockSum T B) :=
  addsSlots_add.blockSum (slotsAre_splitEven hM T) (slotsAre_splitOdd hM T) (slotsAre_splitEven hM B)
    (slotsAre_splitOdd hM B) hbias

/-- The rounded average of the 2×2 block in slot `j` of two rows. -/
def blockAverage {N : Nat} (T B : BitVec N) (j : Nat) : Byte :=
  roundedAverage (byteOf T (2 * j)) (byteOf T (2 * j + 1)) (byteOf B (2 * j)) (byteOf B (2 * j + 1))

/-- Bits [9:2] of an exact slot sum are the rounded average (R165, R210). -/
theorem blockAverage_eq_extract {N : Nat} {T B : BitVec N} {w : BitVec 16} {j : Nat}
    (h : w.toNat = blockSum T B j) : blockAverage T B j = w.extractLsb' 2 8 := by
  apply BitVec.eq_of_toNat_eq
  rw [BitVec.extractLsb'_toNat, h, Nat.shiftRight_eq_div_pow]
  simp [blockAverage, roundedAverage, blockSum]

/-- Eight bits inside a slot are eight bits of the word. -/
theorem extract_slot {N : Nat} (w : BitVec N) (j : Nat) {a : Nat} (ha : a + 8 ≤ 16) :
    (slot w j).extractLsb' a 8 = w.extractLsb' (16 * j + a) 8 := by
  ext b hb
  simp only [slot, BitVec.getElem_extractLsb', BitVec.getLsbD_extractLsb',
    show a + b < 16 by omega, decide_true, Bool.true_and, Nat.add_assoc]

/-- Each slot of Extract holds its average in the low byte and 0 in the high byte (R165). -/
theorem slot_extract_laneSum {N : Nat} {M bias : BitVec N} (hM : KeepsLowBytes M)
    (hbias : SlotsAre bias fun _ => 2) (T B : BitVec N) {j : Nat}
    (hj : 16 * j + 16 ≤ N) :
    slot (extract M (laneSum M bias T B)) j = (blockAverage T B j).setWidth 16 := by
  rw [blockAverage_eq_extract (slotsAre_laneSum hM hbias T B j hj), extract, slot_and_mask hM _ hj,
    byteOf_ushiftRight, extract_slot _ _ (by omega), show 8 * (2 * j) = 16 * j by ring]

/-! ### The folds -/

/-- Where slot `j` is a byte in 16 bits, its low bits are the byte's. -/
theorem getLsbD_slot_low {N : Nat} {w : BitVec N} {x : Byte} {n j b : Nat}
    (h : slot w j = x.setWidth 16) (hn : n = 16 * j + b) (hb : b < 8) :
    w.getLsbD n = x.getLsbD b := by
  have := congrArg (·.getLsbD b) h
  simpa [slot, hn, hb, show b < 16 by omega] using this

/-- Where slot `j` is a byte in 16 bits, its high bits are 0. -/
theorem getLsbD_slot_high {N : Nat} {w : BitVec N} {x : Byte} {n j b : Nat}
    (h : slot w j = x.setWidth 16) (hn : n = 16 * j + (8 + b)) (hb : b < 8) :
    w.getLsbD n = false := by
  have := congrArg (·.getLsbD (8 + b)) h
  simpa [slot, hn, show 8 + b < 16 by omega] using this

theorem byteOf_getElem {N : Nat} (w : BitVec N) (i : Nat) {b : Nat} (hb : b < 8) :
    (byteOf w i)[b] = w.getLsbD (8 * i + b) := by
  simp [byteOf]

/-- The low byte of a slot that is a byte in 16 bits. -/
theorem byteOf_of_slot {N : Nat} {w : BitVec N} {x : Byte} {j : Nat} (h : slot w j = x.setWidth 16) :
    byteOf w (2 * j) = x := by
  ext b hb
  rw [byteOf_getElem w _ hb, getLsbD_slot_low h (by omega) hb, BitVec.getLsbD_eq_getElem]

theorem fold32_getLsbD (a : Word) {n : Nat} (hn : n < 16) :
    (fold32 a).getLsbD n = (a.getLsbD (8 + n) || a.getLsbD n) := by
  have mask : ∀ n : Fin 16, K32.getLsbD n = true := by decide
  simp [fold32, -BitVec.getLsbD_eq_getElem, mask ⟨n, hn⟩, hn]

/-- Fold_32 packs the bytes of the two slots (R166). -/
theorem byteOf_fold32 {a : Word} {x : Nat → Byte} (h : ∀ j, j < 2 → slot a j = (x j).setWidth 16)
    {i : Nat} (hi : i < 2) : byteOf (fold32 a) i = x i := by
  ext b hb
  rw [byteOf_getElem _ _ hb, fold32_getLsbD a (by omega), ← BitVec.getLsbD_eq_getElem]
  have h0 := h 0 (by omega)
  have h1 := h 1 (by omega)
  match i, hi with
  | 0, _ =>
    rw [getLsbD_slot_high h0 (by omega) hb, getLsbD_slot_low h0 (by omega) hb, Bool.false_or]
  | 1, _ =>
    rw [getLsbD_slot_low h1 (by omega) hb, getLsbD_slot_high h0 (by omega) hb, Bool.or_false]

theorem fold64First_getLsbD (a : DWord) {n : Nat} (hn : n < 64) :
    (fold64First a).getLsbD n = ((a.getLsbD (8 + n) || a.getLsbD n) && decide (n % 32 < 16)) := by
  have mask : ∀ n : Fin 64, K64A.getLsbD n = decide ((n : Nat) % 32 < 16) := by decide
  simp [fold64First, -BitVec.getLsbD_eq_getElem, mask ⟨n, hn⟩]

theorem fold64_getLsbD (a : DWord) {n : Nat} (hn : n < 32) :
    (fold64 a).getLsbD n = ((fold64First a).getLsbD (16 + n) || (fold64First a).getLsbD n) := by
  have mask : ∀ n : Fin 32, K64B.getLsbD n = true := by decide
  simp [fold64, -BitVec.getLsbD_eq_getElem, mask ⟨n, hn⟩, hn]

/-- Fold_64 packs the bytes of the four slots (R167). -/
theorem byteOf_fold64 {a : DWord} {x : Nat → Byte} (h : ∀ j, j < 4 → slot a j = (x j).setWidth 16)
    {i : Nat} (hi : i < 4) : byteOf (fold64 a) i = x i := by
  ext b hb
  rw [byteOf_getElem _ _ hb, fold64_getLsbD a (by omega), fold64First_getLsbD a (by omega),
    fold64First_getLsbD a (by omega), ← BitVec.getLsbD_eq_getElem]
  have h0 := h 0 (by omega)
  have h1 := h 1 (by omega)
  have h2 := h 2 (by omega)
  have h3 := h 3 (by omega)
  match i, hi with
  | 0, _ =>
    rw [decide_eq_false (by omega), Bool.and_false, Bool.false_or, decide_eq_true (by omega),
      Bool.and_true, getLsbD_slot_high h0 (by omega) hb, getLsbD_slot_low h0 (by omega) hb,
      Bool.false_or]
  | 1, _ =>
    rw [decide_eq_false (by omega), Bool.and_false, Bool.false_or, decide_eq_true (by omega),
      Bool.and_true, getLsbD_slot_low h1 (by omega) hb, getLsbD_slot_high h0 (by omega) hb,
      Bool.or_false]
  | 2, _ =>
    rw [decide_eq_true (by omega), Bool.and_true, decide_eq_false (by omega), Bool.and_false,
      Bool.or_false, getLsbD_slot_high h2 (by omega) hb, getLsbD_slot_low h2 (by omega) hb,
      Bool.false_or]
  | 3, _ =>
    rw [decide_eq_true (by omega), Bool.and_true, decide_eq_false (by omega), Bool.and_false,
      Bool.or_false, getLsbD_slot_low h3 (by omega) hb, getLsbD_slot_high h2 (by omega) hb,
      Bool.or_false]

theorem slotsAre_of_fin {N : Nat} {w : BitVec N} {f : Nat → Nat}
    (h : ∀ j : Fin (N / 16), (slot w j).toNat = f j) : SlotsAre w f :=
  fun j hj => h ⟨j, by omega⟩

theorem slotsAre_BIAS32 : SlotsAre BIAS32 fun _ => 2 := slotsAre_of_fin (by decide)

theorem slotsAre_BIAS64 : SlotsAre BIAS64 fun _ => 2 := slotsAre_of_fin (by decide)

theorem slotsAre_BIAS128 : SlotsAre BIAS128 fun _ => 2 := slotsAre_of_fin (by decide)

/-- Byte `i` of Avg32 is the average of block `i` (R168). -/
theorem byteOf_avg32 (T B : Word) {i : Nat} (hi : i < 2) :
    byteOf (avg32 T B) i = blockAverage T B i :=
  byteOf_fold32 (fun _ hj => slot_extract_laneSum keepsLowBytes_M32 slotsAre_BIAS32 T B (by omega)) hi

/-- Byte `i` of Avg64 is the average of block `i` (R169). -/
theorem byteOf_avg64 (T B : DWord) {i : Nat} (hi : i < 4) :
    byteOf (avg64 T B) i = blockAverage T B i :=
  byteOf_fold64 (fun _ hj => slot_extract_laneSum keepsLowBytes_M64 slotsAre_BIAS64 T B (by omega)) hi

/-- The combine of P32X2 puts the first half's bytes below the second's (R172). -/
theorem byteOf_combine32x2 (p q : BitVec 16) {i : Nat} (hi : i < 4) :
    byteOf (combine32x2 p q) i = if i < 2 then byteOf p i else byteOf q (i - 2) := by
  ext b hb
  split
  · next h =>
    simp [byteOf, combine32x2, show 8 * i + b < 32 by omega, show 8 * i + b < 16 by omega]
  · next h =>
    simp [byteOf, combine32x2, show 8 * i + b < 32 by omega, show ¬ 8 * i + b < 16 by omega,
      show 8 * (i - 2) + b = 8 * i + b - 16 by omega, BitVec.getLsbD_of_ge p (8 * i + b) (by omega)]

/-! ### The vector datapath -/

theorem lane16_eq_slot (v : Vec) (j : Nat) : lane16 v j = slot v j := rfl

theorem lane8_eq_byteOf (v : Vec) (i : Nat) : lane8 v i = byteOf v i := rfl

/-- 16-bit lane `j` of a vector made of lanes. -/
theorem slot_ofLanes16 (f : Nat → BitVec 16) {j : Nat} (hj : j < 8) : slot (ofLanes16 f) j = f j := by
  unfold slot ofLanes16
  interval_cases j <;>
    simp (disch := omega) only [BitVec.extractLsb'_append_eq_of_le,
      BitVec.extractLsb'_append_eq_of_add_le, BitVec.extractLsb'_eq_self, Nat.reduceSub, Nat.reduceMul]

/-- Byte lane `i` of a vector made of bytes. -/
theorem byteOf_ofLanes8 (f : Fin 16 → Byte) (i : Fin 16) : byteOf (ofLanes8 f) i = f i := by
  unfold byteOf ofLanes8
  fin_cases i <;>
    simp (disch := omega) only [BitVec.extractLsb'_append_eq_of_le,
      BitVec.extractLsb'_append_eq_of_add_le, BitVec.extractLsb'_eq_self, Nat.reduceSub, Nat.reduceMul]
  all_goals rfl

theorem slot_shrU16 (v : Vec) (n : Nat) {j : Nat} (hj : j < 8) :
    slot (shrU16 v n) j = slot v j >>> n := slot_ofLanes16 _ hj

/-- `+u16` adds lanes one by one: without a wrap the sum is exact. -/
theorem addsSlots_addU16 : AddsSlots addU16 := by
  intro x y f g hx hy hfg j hj
  rw [addU16, slot_ofLanes16 _ (by omega), BitVec.toNat_add, lane16_eq_slot, lane16_eq_slot,
    hx j hj, hy j hj, Nat.mod_eq_of_lt (hfg j)]

theorem slotsAre_vSplitEven (v : Vec) :
    SlotsAre (vSplitEven v) fun j => (byteOf v (2 * j)).toNat :=
  slotsAre_splitEven keepsLowBytes_M128 v

theorem slotsAre_vSplitOdd (v : Vec) :
    SlotsAre (vSplitOdd v) fun j => (byteOf v (2 * j + 1)).toNat := by
  intro j hj
  have hlt := (slot v j).isLt
  have hbyte : byteOf v (2 * j + 1) = (slot v j).extractLsb' 8 8 := by
    rw [extract_slot v j (by omega), show 16 * j + 8 = 8 * (2 * j + 1) by ring]
    rfl
  show (slot (vSplitOdd v) j).toNat = (byteOf v (2 * j + 1)).toNat
  rw [vSplitOdd, slot_shrU16 v 8 (by omega), hbyte, BitVec.toNat_ushiftRight,
    BitVec.extractLsb'_toNat, Nat.shiftRight_eq_div_pow]
  omega

/-- No lane of VLaneSum wraps: each is the exact sum of its four bytes and the bias (R192). -/
theorem slotsAre_vLaneSum (T B : Vec) : SlotsAre (vLaneSum T B) (blockSum T B) :=
  addsSlots_addU16.blockSum (slotsAre_vSplitEven T) (slotsAre_vSplitOdd T) (slotsAre_vSplitEven B)
    (slotsAre_vSplitOdd B) slotsAre_BIAS128

/-- Each lane of VAvg holds its average in the low byte and 0 in the high byte (R193). -/
theorem slot_vAvg (T B : Vec) {j : Nat} (hj : j < 8) :
    slot (vAvg T B) j = (blockAverage T B j).setWidth 16 := by
  rw [blockAverage_eq_extract (slotsAre_vLaneSum T B j (by omega)), vAvg,
    slot_and_mask keepsLowBytes_M128 _ (by omega)]
  have hbyte : byteOf (shrU16 (vLaneSum T B) 2) (2 * j) =
      (slot (shrU16 (vLaneSum T B) 2) j).extractLsb' 0 8 := by
    rw [extract_slot _ j (by omega), show 16 * j + 0 = 8 * (2 * j) by ring]
    rfl
  rw [hbyte, slot_shrU16 _ 2 hj]
  congr 1

/-- Narrow packs the low bytes of A's eight lanes below those of B's (R195). -/
theorem byteOf_narrow (A B : Vec) {i : Nat} (hi : i < 16) :
    byteOf (narrow A B) i = if i < 8 then byteOf A (2 * i) else byteOf B (2 * (i - 8)) := by
  rw [narrow, shuffle, byteOf_ofLanes8 _ ⟨i, hi⟩]
  unfold pairByte narrowIdx
  by_cases h : i < 8
  · rw [if_pos h, if_pos (by dsimp only; omega), lane8_eq_byteOf]
  · rw [if_neg h, if_neg (by dsimp only; omega), lane8_eq_byteOf,
      show 2 * (i - 8) = 2 * i - 16 by omega]

/-! ### The output of a step -/

/-- The rounded average of the four bytes at columns `top`, `top + 1` of one row and `bot`, `bot + 1` of
the other (R210). -/
def Memory.averageAt (m : Memory) (top bot : Nat) : Byte :=
  roundedAverage (m.readByte top) (m.readByte (top + 1)) (m.readByte bot) (m.readByte (bot + 1))

/-- Block `j` of two rows that are read from memory. -/
theorem blockAverage_readLE (m : Memory) (top bot : Nat) {n j : Nat} (h : 2 * j + 1 < n) :
    blockAverage (m.readLE top n) (m.readLE bot n) j = m.averageAt (top + 2 * j) (bot + 2 * j) := by
  unfold blockAverage Memory.averageAt byteOf
  rw [Memory.extract_readLE (by omega), Memory.extract_readLE h, Memory.extract_readLE (by omega),
    Memory.extract_readLE h]
  rfl

theorem byteOf_zero (b : Byte) : byteOf b 0 = b := BitVec.extractLsb'_eq_self

theorem readLE_one (m : Memory) (a : Nat) : m.readLE a 1 = m.readByte a :=
  (byteOf_zero _).symm.trans (Memory.extract_readLE (by omega))

/-- The shift of R150 is the division of R210. -/
theorem scalarAverage_eq_roundedAverage (a b c d : Byte) :
    scalarAverage a b c d = roundedAverage a b c d := by
  rw [scalarAverage, roundedAverage, Nat.shiftRight_eq_div_pow]

/-- Every datapath puts the rounded average of block `j` of its two rows into output byte `j` (R150,
R168 to R174, R196, R210). -/
theorem byteOf_stepOutput (m : Memory) (v : Variant) (top bot : Nat) {j : Nat} (hj : j < outBytes v) :
    byteOf (stepOutput m v top bot) j = m.averageAt (top + 2 * j) (bot + 2 * j) := by
  cases v with
  | scalar =>
    obtain rfl : j = 0 := Nat.lt_one_iff.mp hj
    refine (byteOf_zero _).trans ?_
    show scalarAverage (m.readLE top 1) (m.readLE (top + 1) 1) (m.readLE bot 1)
      (m.readLE (bot + 1) 1) = m.averageAt top bot
    rw [scalarAverage_eq_roundedAverage, readLE_one, readLE_one, readLE_one, readLE_one]
    rfl
  | p32 =>
    replace hj : j < 2 := hj
    exact (byteOf_avg32 _ _ hj).trans (blockAverage_readLE m top bot (by omega))
  | p32x2 =>
    replace hj : j < 4 := hj
    refine (byteOf_combine32x2 _ _ hj).trans ?_
    split
    · next h => rw [byteOf_avg32 _ _ h, blockAverage_readLE m top bot (by omega)]
    · next h =>
      rw [byteOf_avg32 _ _ (by omega), blockAverage_readLE m _ _ (by omega)]
      congr 1 <;> omega
  | p64 =>
    replace hj : j < 4 := hj
    exact (byteOf_avg64 _ _ hj).trans (blockAverage_readLE m top bot (by omega))
  | v128 =>
    replace hj : j < 16 := hj
    refine (byteOf_narrow _ _ hj).trans ?_
    split
    · next h => rw [byteOf_of_slot (slot_vAvg _ _ h), blockAverage_readLE m top bot (by omega)]
    · next h =>
      rw [byteOf_of_slot (slot_vAvg _ _ (by omega)), blockAverage_readLE m _ _ (by omega)]
      congr 1 <;> omega

end Sys2Proof.Machine
end

/-!
The shape of an accepted operation (`40_control.md` R126, R132; `20_memory.md` R61, R62, R70, R71): its
steps tile the rows, the groups follow one another in the output, and every block lies in the input.
-/
section
namespace Sys2Proof.Machine

open Sys2Proof

/-! ### The shape of an accepted operation -/

/-- A block gives one output byte, so a step takes two columns for each (R2). -/
theorem columns_eq_two_mul_outBytes (v : Variant) : columns v = 2 * outBytes v := by
  cases v <;> rfl

/-- The block groups of one output row. -/
def State.rowGroups (s : State) : Nat := s.opW / columns s.lastVar

/-- The number of output bytes before the group at cursor (y, k), in row-major order (R62, R132). -/
def State.groupStart (s : State) (y k : Nat) : Nat := (y * s.rowGroups + k) * outBytes s.lastVar

/-- The running operation is one that START accepted, with the cursor at (y, k) inside the output image
and PROGRESS at the start of its group: what `State.RunInv` says of the cursor. -/
structure State.RunsAt (s : State) (y k : Nat) : Prop where
  accepted : startAccepted s.lastVar s
  nonempty : 0 < s.opN
  row      : y < s.opH / 2
  group    : k < s.rowGroups
  progress : s.progress.toNat = s.groupStart y k

theorem State.RunInv.runsAt {s : State} {y k : Nat} (h : s.RunInv) (hp : s.phase = .run y k) :
    s.RunsAt y k := by
  obtain ⟨hacc, hN, hy, hk, hprog⟩ := h y k hp
  exact ⟨hacc, hN, hy, hk, hprog⟩

theorem runInv_of_runsAt {s : State} {y k : Nat} (hp : s.phase = .run y k) (h : s.RunsAt y k) :
    s.RunInv := by
  intro y' k' hp'
  obtain ⟨rfl, rfl⟩ : y = y' ∧ k = k' := by simpa using hp.symm.trans hp'
  exact ⟨h.accepted, h.nonempty, h.row, h.group, h.progress⟩

/-- The steps of an accepted operation tile its rows: W is two columns for each output byte of a row. -/
theorem opW_of_accepted {s : State} (h : startAccepted s.lastVar s) :
    s.opW = 2 * (s.rowGroups * outBytes s.lastVar) := by
  obtain ⟨-, hdim, -⟩ := h
  have hdvd : columns s.lastVar ∣ s.opW := by
    rw [columns_eq_granularity]
    by_contra hg
    exact hdim (.inr (.inr hg))
  calc s.opW = s.opW / columns s.lastVar * columns s.lastVar := (Nat.div_mul_cancel hdvd).symm
    _ = 2 * (s.rowGroups * outBytes s.lastVar) := by
      rw [columns_eq_two_mul_outBytes, State.rowGroups, columns_eq_two_mul_outBytes]
      ring

/-- The height of an accepted operation is even. -/
theorem opH_of_accepted {v : Variant} {s : State} (h : startAccepted v s) :
    s.opH = 2 * (s.opH / 2) := by
  obtain ⟨-, hdim, -⟩ := h
  have : ¬ s.opH % 2 = 1 := fun hodd => hdim (.inr (.inl hodd))
  omega

/-- The buffers of an accepted operation lie in the address space and have no byte in common, and N fits
into a register. -/
theorem ranges_of_accepted {v : Variant} {s : State} (h : startAccepted v s) (hN : 0 < s.opN) :
    s.opN < 2 ^ 32 ∧ s.opD + s.opN ≤ Config.addrSpace ∧
      (s.opD + s.opN ≤ s.opS ∨ s.opS + s.opW * s.opH ≤ s.opD) := by
  obtain ⟨-, -, hlen, -, hrange, hoverlap⟩ := h
  have hL := s.dstLen.isLt
  have hlen' : ¬ s.dstLen.toNat < s.opN := hlen
  have hspace : ¬ Config.addrSpace < s.opD + s.opN := fun hlt => hrange (.inr hlt)
  have hdisjoint : ¬ (0 < s.opN ∧ s.opS < s.opD + s.opN ∧ s.opD < s.opS + s.opW * s.opH) := hoverlap
  exact ⟨by omega, by omega, by omega⟩

section RunsAt

variable {s : State} {y k : Nat}

theorem State.RunsAt.opW_eq (h : s.RunsAt y k) : s.opW = 2 * (s.rowGroups * outBytes s.lastVar) :=
  opW_of_accepted h.accepted

theorem State.RunsAt.opN_eq (h : s.RunsAt y k) :
    s.opN = s.opH / 2 * s.rowGroups * outBytes s.lastVar := by
  have hhalf : s.opW / 2 = s.rowGroups * outBytes s.lastVar := by rw [h.opW_eq]; omega
  rw [State.opN, hhalf]
  ring

/-- The step's group starts at PROGRESS (R132, R35). -/
theorem State.RunsAt.dstAddr_eq (h : s.RunsAt y k) :
    s.dstAddr s.lastVar y k = s.opD + s.progress.toNat := by
  have hhalf : s.opW / 2 = s.rowGroups * outBytes s.lastVar := by rw [h.opW_eq]; omega
  rw [h.progress, State.dstAddr, State.groupStart, hhalf]
  ring

/-- The group at the cursor lies in the output. -/
theorem State.RunsAt.progress_add_le (h : s.RunsAt y k) :
    s.progress.toNat + outBytes s.lastVar ≤ s.opN := by
  have hrow : (y + 1) * s.rowGroups ≤ s.opH / 2 * s.rowGroups := Nat.mul_le_mul_right _ h.row
  have hgroup : y * s.rowGroups + k + 1 ≤ s.opH / 2 * s.rowGroups := by
    linarith [h.group]
  calc s.progress.toNat + outBytes s.lastVar
      = (y * s.rowGroups + k + 1) * outBytes s.lastVar := by
        rw [h.progress, State.groupStart]; ring
    _ ≤ s.opH / 2 * s.rowGroups * outBytes s.lastVar := Nat.mul_le_mul_right _ hgroup
    _ = s.opN := h.opN_eq.symm

/-- PROGRESS does not wrap (R35). -/
theorem State.RunsAt.progress_add_toNat (h : s.RunsAt y k) :
    (s.progress + BitVec.ofNat 32 (outBytes s.lastVar)).toNat =
      s.progress.toNat + outBytes s.lastVar := by
  obtain ⟨hN, -, -⟩ := ranges_of_accepted h.accepted h.nonempty
  have hle := h.progress_add_le
  rw [BitVec.toNat_add, BitVec.toNat_ofNat]
  omega

/-- Output byte `j` of the group is the rounded average of the block at `top + 2j` and `bot + 2j`: the
cursor order of R132 is the row-major order of R62. -/
theorem State.RunsAt.outByte_eq (h : s.RunsAt y k) (m : Memory) {j : Nat}
    (hj : j < outBytes s.lastVar) :
    s.outByte m (s.progress.toNat + j) =
      m.averageAt (s.topAddr s.lastVar y k + 2 * j) (s.botAddr s.lastVar y k + 2 * j) := by
  have hhalf : s.opW / 2 = s.rowGroups * outBytes s.lastVar := by rw [h.opW_eq]; omega
  have hx : k * outBytes s.lastVar + j < s.opW / 2 := by
    rw [hhalf]
    have := Nat.mul_le_mul_right (outBytes s.lastVar) (Nat.succ_le_of_lt h.group)
    linarith
  have hi : s.progress.toNat + j = s.opW / 2 * y + (k * outBytes s.lastVar + j) := by
    rw [h.progress, State.groupStart, hhalf]
    ring
  have hcol : (s.progress.toNat + j) % (s.opW / 2) = k * outBytes s.lastVar + j := by
    rw [hi, Nat.mul_add_mod, Nat.mod_eq_of_lt hx]
  have hrow : (s.progress.toNat + j) / (s.opW / 2) = y := by
    rw [hi, Nat.mul_add_div (by omega), Nat.div_eq_of_lt hx, Nat.add_zero]
  rw [State.outByte, hcol, hrow]
  unfold State.outSample State.inSample Memory.averageAt State.botAddr State.topAddr
  rw [columns_eq_two_mul_outBytes]
  congr 2 <;> ring

/-- Every byte of the block at `top + 2j` and `bot + 2j` is a byte of the input (R70). -/
theorem State.RunsAt.block_in_input (h : s.RunsAt y k) {j : Nat} (hj : j < outBytes s.lastVar) :
    s.opS ≤ s.topAddr s.lastVar y k ∧
      s.topAddr s.lastVar y k + 2 * j + 1 < s.opS + s.opW * s.opH ∧
      s.opS ≤ s.botAddr s.lastVar y k ∧
      s.botAddr s.lastVar y k + 2 * j + 1 < s.opS + s.opW * s.opH := by
  have hcol : k * columns s.lastVar + 2 * j + 1 < s.opW := by
    have := Nat.mul_le_mul_right (outBytes s.lastVar) (Nat.succ_le_of_lt h.group)
    rw [columns_eq_two_mul_outBytes, h.opW_eq]
    linarith
  have hrow : (2 * y + 2) * s.opW ≤ s.opW * s.opH := by
    rw [Nat.mul_comm]
    apply Nat.mul_le_mul_left
    have := opH_of_accepted h.accepted
    have := h.row
    omega
  unfold State.botAddr State.topAddr
  refine ⟨by omega, ?_, by omega, ?_⟩ <;> linarith

end RunsAt

/-- Two memories with the same input have the same averages of its blocks. -/
theorem State.RunsAt.averageAt_congr {s : State} {y k : Nat} (h : s.RunsAt y k) {m m' : Memory}
    (hm : ∀ i, i < s.opW * s.opH → m.readByte (s.opS + i) = m'.readByte (s.opS + i))
    {j : Nat} (hj : j < outBytes s.lastVar) :
    m.averageAt (s.topAddr s.lastVar y k + 2 * j) (s.botAddr s.lastVar y k + 2 * j) =
      m'.averageAt (s.topAddr s.lastVar y k + 2 * j) (s.botAddr s.lastVar y k + 2 * j) := by
  obtain ⟨htop, htop', hbot, hbot'⟩ := h.block_in_input hj
  have same {a : Nat} (hlo : s.opS ≤ a) (hhi : a < s.opS + s.opW * s.opH) :
      m.readByte a = m'.readByte a := by
    have := hm (a - s.opS) (by omega)
    rwa [Nat.add_sub_cancel' hlo] at this
  unfold Memory.averageAt
  rw [same (by omega) (by omega), same (by omega) htop', same (by omega) (by omega),
    same (by omega) hbot']

end Sys2Proof.Machine
end

/-!
The invariant of the machine (`10_state.md` R29, R35, R38; `44_equivalence.md` R213, R215): memory after
an engine step and after a host store, the next cursor, and that every step keeps the invariant.
-/
section
namespace Sys2Proof.Machine

open Sys2Proof

/-! ### Memory after a step of the engine -/

/-- An admitted step writes inside the address space. -/
theorem State.stepAdmitted.dstAddr_le {s : State} {y k : Nat} (h : s.stepAdmitted y k) :
    s.dstAddr s.lastVar y k + outBytes s.lastVar ≤ Config.addrSpace :=
  (memOk_bounds (h _ (List.mem_of_getLast? (getLast?_stepAccesses _ _ _ _)))).1

theorem groupMem_wf {s : State} {y k : Nat} (h : s.stepAdmitted y k) (hm : s.mem.wf = true) :
    (s.groupMem y k).wf = true :=
  Memory.writeLE_wf h.dstAddr_le hm

/-- A step writes the bytes of its group and no other. -/
theorem readByte_groupMem {s : State} {y k : Nat} (h : s.stepAdmitted y k) (hm : s.mem.wf = true)
    (a : Nat) :
    (s.groupMem y k).readByte a =
      if s.dstAddr s.lastVar y k ≤ a ∧ a < s.dstAddr s.lastVar y k + outBytes s.lastVar then
        s.mem.averageAt (s.topAddr s.lastVar y k + 2 * (a - s.dstAddr s.lastVar y k))
          (s.botAddr s.lastVar y k + 2 * (a - s.dstAddr s.lastVar y k))
      else s.mem.readByte a := by
  rw [State.groupMem, Memory.readByte_writeLE a h.dstAddr_le hm]
  split
  · next hin => exact byteOf_stepOutput _ _ _ _ (by omega)
  · rfl

/-- A step of an operation writes no byte of its input (R213). -/
theorem readByte_groupMem_input {s : State} {y k : Nat} (hr : s.RunsAt y k) (h : s.stepAdmitted y k)
    (hm : s.mem.wf = true) {i : Nat} (hi : i < s.opW * s.opH) :
    (s.groupMem y k).readByte (s.opS + i) = s.mem.readByte (s.opS + i) := by
  obtain ⟨-, -, hdisjoint⟩ := ranges_of_accepted hr.accepted hr.nonempty
  have hdst := hr.dstAddr_eq
  have hle := hr.progress_add_le
  rw [readByte_groupMem h hm, if_neg (by omega)]

/-- After a step of an operation the output holds the values of R210 up to the new PROGRESS, and those
from before START after it (R215). -/
theorem readByte_groupMem_output {s : State} {y k : Nat} (hr : s.RunsAt y k)
    (h : s.stepAdmitted y k) (hm : s.mem.wf = true) (hc : s.ContentsInv) (hb : s.busy = true) {i : Nat}
    (hi : i < s.opN) :
    (s.groupMem y k).readByte (s.opD + i) =
      if i < s.progress.toNat + outBytes s.lastVar then s.outByte s.memAtStart i
      else s.memAtStart.readByte (s.opD + i) := by
  obtain ⟨hinput, houtput⟩ := hc hb
  rw [readByte_groupMem h hm, hr.dstAddr_eq]
  by_cases hin : s.progress.toNat ≤ i ∧ i < s.progress.toNat + outBytes s.lastVar
  · obtain ⟨hlo, hhi⟩ := hin
    rw [if_pos (by omega), if_pos hhi,
      show s.opD + i - (s.opD + s.progress.toNat) = i - s.progress.toNat by omega,
      hr.averageAt_congr hinput (by omega), ← hr.outByte_eq _ (by omega), Nat.add_sub_cancel' hlo]
  · rw [if_neg (by omega), houtput i hi]
    by_cases hlo : i < s.progress.toNat
    · rw [if_pos hlo, if_pos (by omega)]
    · rw [if_neg hlo, if_neg (by omega)]

/-! ### Memory after a host store -/

/-- A store leaves every byte that it does not name. -/
theorem readByte_writeBytes_of_not_named {m : Memory} {a x : Nat} {bs : List Byte}
    (hspace : a + bs.length ≤ Config.addrSpace) (hm : m.wf = true)
    (hx : ∀ i, i < bs.length → a + i ≠ x) : (m.writeBytes a bs).readByte x = m.readByte x := by
  rw [Memory.readByte_writeBytes x hspace hm]
  split
  · next hle =>
    have hlen : bs.length ≤ x - a := by
      by_contra hlt
      exact hx (x - a) (by omega) (by omega)
    rw [List.getElem?_eq_none hlen]
    rfl
  · rfl

theorem inInput_opS_add {s : State} {i : Nat} (hi : i < s.opW * s.opH) :
    s.inInput (s.opS + i) = true := by
  simpa [State.inInput] using hi

theorem inOutput_opD_add {s : State} {i : Nat} (hi : i < s.opN) : s.inOutput (s.opD + i) = true := by
  simpa [State.inOutput] using hi

/-- A store that touches no buffer of the running operation keeps what is said of its contents. -/
theorem contentsInv_writeBytes {s : State} {a : Nat} {bs : List Byte}
    (hspace : a + bs.length ≤ Config.addrSpace) (hm : s.mem.wf = true)
    (hfree : ¬ (s.busy = true ∧ ∃ i, i < bs.length ∧
      (s.inInput (a + i) = true ∨ s.inOutput (a + i) = true)))
    (hc : s.ContentsInv) : ({ s with mem := s.mem.writeBytes a bs } : State).ContentsInv := by
  intro hb
  obtain ⟨hinput, houtput⟩ := hc hb
  refine ⟨fun i hi => (readByte_writeBytes_of_not_named hspace hm fun j hj e => ?_).trans (hinput i hi),
    fun i hi => (readByte_writeBytes_of_not_named hspace hm fun j hj e => ?_).trans (houtput i hi)⟩
  · exact hfree ⟨hb, j, hj, .inl ((congrArg s.inInput e).trans (inInput_opS_add hi))⟩
  · exact hfree ⟨hb, j, hj, .inr ((congrArg s.inOutput e).trans (inOutput_opD_add hi))⟩

/-! ### Memory stays canonical -/

theorem startOperation_memInv {s : State} (v : Variant) (hs : s.MemInv) :
    (s.startOperation v).MemInv := by
  obtain ⟨hmem, hstart⟩ := hs
  rcases startOperation_cases s v with ⟨e, -, h⟩ | ⟨-, -, h⟩ | ⟨-, -, h⟩ <;> rw [h]
  · exact ⟨hmem, hstart⟩
  · exact ⟨hmem, hstart⟩
  · exact ⟨hmem, hmem⟩

theorem memInv_of_instrEffect {i : Instr} {s t : State} (hs : s.MemInv) (h : InstrEffect i s t) :
    t.MemInv := by
  cases h with
  | start v => exact startOperation_memInv v hs
  | _ => exact hs

theorem memInv_of_turnEffect {s t : State} (hs : s.MemInv) (h : TurnEffect s t) : t.MemInv := by
  obtain ⟨hmem, hstart⟩ := hs
  cases h with
  | last y k hp ha => exact ⟨groupMem_wf ha hmem, hstart⟩
  | next y k hp ha => exact ⟨groupMem_wf ha hmem, hstart⟩
  | _ => exact ⟨hmem, hstart⟩

/-! ### The cursor -/

/-- The next cursor of a running operation is inside the output image, and its group starts where the
last one ended (R132). -/
theorem State.RunsAt.next {s : State} {y k : Nat} (h : s.RunsAt y k)
    (hr : s.nextRow s.lastVar y k ≠ s.opH / 2) :
    s.nextRow s.lastVar y k < s.opH / 2 ∧ s.nextGroup s.lastVar k < s.rowGroups ∧
      s.groupStart (s.nextRow s.lastVar y k) (s.nextGroup s.lastVar k) =
        s.groupStart y k + outBytes s.lastVar := by
  have hrow := h.row
  have hgroup := h.group
  by_cases hin : k + 1 < s.rowGroups
  · rw [show s.nextRow s.lastVar y k = y from if_pos hin,
      show s.nextGroup s.lastVar k = k + 1 from if_pos hin]
    exact ⟨hrow, hin, by unfold State.groupStart; ring⟩
  · rw [show s.nextRow s.lastVar y k = y + 1 from if_neg hin] at hr ⊢
    rw [show s.nextGroup s.lastVar k = 0 from if_neg hin]
    refine ⟨by omega, by omega, ?_⟩
    rw [State.groupStart, State.groupStart, show s.rowGroups = k + 1 by omega]
    ring

/-- The first cursor of an accepted operation with some output. -/
theorem runsAt_zero {s : State} (hacc : startAccepted s.lastVar s) (hN : 0 < s.opN)
    (hprog : s.progress = 0#32) : s.RunsAt 0 0 where
  accepted := hacc
  nonempty := hN
  row := Nat.pos_of_mul_pos_left hN
  group := by
    have hW := opW_of_accepted hacc
    by_contra h0
    rw [Nat.eq_zero_of_not_pos h0, Nat.zero_mul, Nat.mul_zero] at hW
    simp [State.opN, hW] at hN
  progress := by simp [hprog, State.groupStart]

/-! ### The invariant -/

/-- Outside RUN the invariant says nothing of an operation. -/
theorem inv_of_idle {s : State} (hp : s.phase = .idle) (hs : s.StatusInv) (hm : s.MemInv) : s.Inv where
  status := hs
  run := fun y k hrun => absurd (hp.symm.trans hrun) (by simp)
  contents := fun hb => absurd ((busy_idle hp).symm.trans hb) (by simp)
  mem := hm

/-- START while idle: a refused or an empty operation stays out of RUN, and an accepted one begins at
(0, 0) with PROGRESS 0 and memory as it is. -/
theorem startOperation_inv {s : State} (v : Variant) (hs : s.Inv) (hb : s.busy = false) :
    (s.startOperation v).Inv := by
  have hstatus := statusInv_startOperation v hb
  have hmem := startOperation_memInv v hs.mem
  have hidle := busy_eq_false_iff.mp hb
  rcases startOperation_cases s v with ⟨e, -, h⟩ | ⟨-, -, h⟩ | ⟨hc, hN, h⟩ <;> rw [h] at hstatus hmem ⊢
  · exact inv_of_idle rfl hstatus hmem
  · exact inv_of_idle hidle hstatus hmem
  · have hacc : startAccepted v s := startCheck_eq_none_iff.mp hc
    exact ⟨hstatus, runInv_of_runsAt rfl (runsAt_zero hacc hN rfl),
      fun _ => ⟨fun _ _ => rfl, fun i _ => (if_neg (Nat.not_lt_zero i)).symm⟩, hmem⟩

/-- An instruction keeps the invariant: it writes what the invariant speaks of only while idle. -/
theorem inv_of_instrEffect {i : Instr} {s t : State} (hs : s.Inv) (h : InstrEffect i s t) : t.Inv := by
  have hstatus := statusInv_of_instrEffect hs.status h
  have hmem := memInv_of_instrEffect hs.mem h
  cases h with
  | start v hi hb => exact startOperation_inv v hs hb
  | configure _ _ _ _ _ hb => exact inv_of_idle (busy_eq_false_iff.mp hb) hstatus hmem
  | clear hi hb => exact inv_of_idle (busy_eq_false_iff.mp hb) hstatus hmem
  | illegal => exact inv_of_idle rfl hstatus hmem
  | _ => exact ⟨hstatus, hs.run, hs.contents, hmem⟩

/-- The engine's turn keeps the invariant: an ended operation leaves RUN, and a completed step moves the
cursor, PROGRESS and the written part of the output on by one group. -/
theorem inv_of_turnEffect {s t : State} (hs : s.Inv) (h : TurnEffect s t) : t.Inv := by
  have hstatus := statusInv_of_turnEffect hs.status h
  have hmem := memInv_of_turnEffect hs.mem h
  cases h with
  | idle => exact hs
  | busError => exact inv_of_idle rfl hstatus hmem
  | last => exact inv_of_idle rfl hstatus hmem
  | next y k hp ha hr =>
    have hb := busy_run hp
    have hat := hs.run.runsAt hp
    have hprog := hat.progress_add_toNat
    obtain ⟨hwf, -⟩ := hs.mem
    obtain ⟨hinput, -⟩ := hs.contents hb
    obtain ⟨hrow, hgroup, hstart⟩ := hat.next hr
    refine ⟨hstatus, runInv_of_runsAt rfl ⟨hat.accepted, hat.nonempty, hrow, hgroup, ?progress⟩,
      fun _ => ⟨fun i hi => ?input, fun i hi => ?output⟩, hmem⟩
    case progress =>
      rw [hprog, hat.progress]
      exact hstart.symm
    case input => exact (readByte_groupMem_input hat ha hwf hi).trans (hinput i hi)
    case output =>
      rw [hprog]
      exact readByte_groupMem_output hat ha hwf hs.contents hb hi

/-- Settles O42: an instruction and an engine turn keep the invariant, a host store touches no buffer of
a running operation, reset leaves RUN, and no other event touches what the invariant speaks of. -/
theorem stepKeepsTheInvariant : Obligations.StepKeepsTheInvariant := by
  intro s t hs h
  obtain ⟨hstatus, hrun, hcontents, hmem⟩ := hs
  cases stepEffect_of_step h with
  | @instr r l t hf hi =>
    exact inv_of_instrEffect (s := { s with pending := l }) ⟨hstatus, hrun, hcontents, hmem⟩ hi
  | store l a bytes hspace hfree =>
    obtain ⟨hwf, hwf'⟩ := hmem
    exact ⟨hstatus, hrun, contentsInv_writeBytes hspace hwf hfree hcontents,
      Memory.writeBytes_wf hspace hwf, hwf'⟩
  | reset => exact inv_of_idle rfl (by simp [State.StatusInv]) hmem
  | @turn t l hp ht =>
    obtain ⟨hstatus', hrun', hcontents', hmem'⟩ :=
      inv_of_turnEffect ⟨hstatus, hrun, hcontents, hmem⟩ ht
    exact ⟨hstatus', hrun', hcontents', hmem'⟩
  | _ => exact ⟨hstatus, hrun, hcontents, hmem⟩

end Sys2Proof.Machine
end

/-!
The accesses of an engine step (`20_memory.md` R65, R66, R70, R71): each row is read in pieces of one
width from left to right, the group's bytes are written at PROGRESS, and all of them are aligned and
inside their buffer.
-/
section
namespace Sys2Proof.Machine

open Sys2Proof

/-! ### The list of a step's accesses -/

/-- The reads of one row of a step: its columns in pieces of the variant's read width (R65, R72). -/
def rowReads (v : Variant) (row : Nat) : List (Nat × Nat) :=
  (List.range (columns v / readWidth v)).map fun i => (row + i * readWidth v, readWidth v)

/-- A step reads its top row, then its bottom row, and last writes its output bytes (R72). -/
theorem stepAccesses_eq (v : Variant) (top bot dst : Nat) :
    stepAccesses v top bot dst = rowReads v top ++ rowReads v bot ++ [(dst, outBytes v)] := by
  cases v <;> rfl

/-- The reads are as wide as the alignment that START asks of the buffers (R2, R65, R66). -/
theorem readWidth_eq_alignment (v : Variant) : readWidth v = alignment v := by
  cases v <;> rfl

theorem readWidth_dvd_columns (v : Variant) : readWidth v ∣ columns v := by
  cases v <;> decide

theorem outBytes_dvd_alignment (v : Variant) : outBytes v ∣ alignment v := by
  cases v <;> decide

/-- From an aligned row every read is aligned (R66). -/
theorem dvd_of_mem_rowReads {v : Variant} {row : Nat} (hrow : readWidth v ∣ row) {q : Nat × Nat}
    (hq : q ∈ rowReads v row) : q.2 ∣ q.1 := by
  obtain ⟨i, -, rfl⟩ := List.mem_map.mp hq
  exact hrow.add (Nat.dvd_mul_left _ i)

/-- The reads of a row lie in the step's columns of it. -/
theorem bounds_of_mem_rowReads {v : Variant} {row : Nat} {q : Nat × Nat} (hq : q ∈ rowReads v row) :
    row ≤ q.1 ∧ q.1 + q.2 ≤ row + columns v := by
  obtain ⟨i, hi, rfl⟩ := List.mem_map.mp hq
  have hend : (i + 1) * readWidth v ≤ columns v :=
    (Nat.mul_le_mul_right _ (List.mem_range.mp hi)).trans (Nat.div_mul_le_self _ _)
  rw [Nat.succ_mul] at hend
  exact ⟨by omega, by omega⟩

/-! ### The accesses of a running operation -/

theorem alignment_dvd_of_accepted {v : Variant} {s : State} (h : startAccepted v s) :
    alignment v ∣ s.opS ∧ alignment v ∣ s.opD := by
  obtain ⟨-, -, -, halign, -⟩ := h
  exact not_or.mp halign |>.imp not_not.mp not_not.mp

section RunsAt

variable {s : State} {y k : Nat}

/-- Both rows of a step begin aligned: SRC is, and W and the columns to the left are whole reads (R66). -/
theorem State.RunsAt.readWidth_dvd_rows (h : s.RunsAt y k) :
    readWidth s.lastVar ∣ s.topAddr s.lastVar y k ∧ readWidth s.lastVar ∣ s.botAddr s.lastVar y k := by
  have hsrc : readWidth s.lastVar ∣ s.opS :=
    readWidth_eq_alignment _ ▸ (alignment_dvd_of_accepted h.accepted).1
  have hcol := readWidth_dvd_columns s.lastVar
  have hwidth : s.opW = s.rowGroups * columns s.lastVar := by
    rw [h.opW_eq, columns_eq_two_mul_outBytes]
    ring
  have hW : readWidth s.lastVar ∣ s.opW := hwidth ▸ hcol.mul_left _
  have htop : readWidth s.lastVar ∣ s.topAddr s.lastVar y k :=
    (hsrc.add (hW.mul_left _)).add (hcol.mul_left _)
  exact ⟨htop, htop.add hW⟩

/-- The write is aligned: DST is, and PROGRESS counts whole groups (R66). -/
theorem State.RunsAt.outBytes_dvd_dstAddr (h : s.RunsAt y k) :
    outBytes s.lastVar ∣ s.dstAddr s.lastVar y k := by
  have hdst := (outBytes_dvd_alignment _).trans (alignment_dvd_of_accepted h.accepted).2
  rw [h.dstAddr_eq, h.progress]
  exact hdst.add (Nat.dvd_mul_left _ _)

/-- The columns of a step lie in the input in both rows (R70): its first and its last block do. -/
theorem State.RunsAt.rows_in_input (h : s.RunsAt y k) :
    (s.opS ≤ s.topAddr s.lastVar y k ∧
      s.topAddr s.lastVar y k + columns s.lastVar ≤ s.opS + s.opW * s.opH) ∧
    (s.opS ≤ s.botAddr s.lastVar y k ∧
      s.botAddr s.lastVar y k + columns s.lastVar ≤ s.opS + s.opW * s.opH) := by
  have hpos : 0 < outBytes s.lastVar := by cases s.lastVar <;> decide
  obtain ⟨htop, htop', hbot, hbot'⟩ := h.block_in_input (j := outBytes s.lastVar - 1) (by omega)
  rw [columns_eq_two_mul_outBytes]
  exact ⟨⟨htop, by omega⟩, hbot, by omega⟩

/-- The output bytes of a step lie in the output (R71). -/
theorem State.RunsAt.dstAddr_in_output (h : s.RunsAt y k) :
    s.opD ≤ s.dstAddr s.lastVar y k ∧
      s.dstAddr s.lastVar y k + outBytes s.lastVar ≤ s.opD + s.opN := by
  have hle := h.progress_add_le
  rw [h.dstAddr_eq]
  exact ⟨by omega, by omega⟩

end RunsAt

/-- Settles O39: the accesses are the reads of two rows that begin aligned and have their columns in the
input, and the write of the group at PROGRESS. -/
theorem accessesAreAlignedAndInsideTheBuffers :
    Obligations.AccessesAreAlignedAndInsideTheBuffers := by
  intro s y k hinv hp
  have hat := hinv.runsAt hp
  obtain ⟨hadTop, hadBot⟩ := hat.readWidth_dvd_rows
  obtain ⟨⟨hloTop, hhiTop⟩, hloBot, hhiBot⟩ := hat.rows_in_input
  rw [State.cursorAccesses, stepAccesses_eq, List.dropLast_concat, List.getLast?_concat]
  refine ⟨fun q hq => ?aligned, fun q hq => ?read, fun q hq => ?write⟩
  case aligned =>
    rcases List.mem_append.mp hq with hq | hq
    · rcases List.mem_append.mp hq with hq | hq
      · exact dvd_of_mem_rowReads hadTop hq
      · exact dvd_of_mem_rowReads hadBot hq
    · obtain rfl := List.mem_singleton.mp hq
      exact hat.outBytes_dvd_dstAddr
  case read =>
    rcases List.mem_append.mp hq with hq | hq
    · obtain ⟨hlo, hhi⟩ := bounds_of_mem_rowReads hq
      exact ⟨hloTop.trans hlo, hhi.trans hhiTop⟩
    · obtain ⟨hlo, hhi⟩ := bounds_of_mem_rowReads hq
      exact ⟨hloBot.trans hlo, hhi.trans hhiBot⟩
  case write =>
    obtain rfl := Option.mem_some.mp hq
    exact hat.dstAddr_in_output

end Sys2Proof.Machine
end

/-!
Who reaches memory, and where (`20_memory.md` R60, R73, R74; `70_reset_and_hazards.md` R258): the bounds of
the memory port, what an instruction and a step do to memory, and the host's own stores.
-/
section
namespace Sys2Proof.Machine

open Sys2Proof

/-! ### The memory port -/

/-- Settles O24: an admitted access would be in the address space and beside the window. -/
theorem windowIsNeverReached : Obligations.WindowIsNeverReached := by
  intro p a n hout
  rw [← Bool.not_eq_true]
  intro hok
  obtain ⟨hspace, hwindow⟩ := memOk_bounds hok
  rcases hout with ⟨b, hlo, hhi, hin⟩ | hpast
  · exact hwindow b hlo hhi hin
  · exact absurd hspace (Nat.not_le_of_lt hpast)

/-! ### Instructions and steps -/

@[simp] theorem startOperation_mem (s : State) (v : Variant) : (s.startOperation v).mem = s.mem := by
  rcases startOperation_cases s v with ⟨e, -, h⟩ | ⟨-, -, h⟩ | ⟨-, -, h⟩ <;> rw [h] <;> rfl

/-- No instruction writes memory (R60). -/
theorem InstrEffect.mem_eq {i : Instr} {s t : State} (h : InstrEffect i s t) : t.mem = s.mem := by
  cases h with
  | start v => exact startOperation_mem s v
  | _ => rfl

/-- Settles O51: an instruction leaves memory as it is, so every byte reads as before. -/
theorem instructionsLeaveMemory : Obligations.InstructionsLeaveMemory := by
  intro i s t h a
  rw [(instrEffect_of_exec h).mem_eq]

/-- Settles O41: an instruction and an engine turn keep memory canonical, a host store writes inside the
address space, and no other event writes memory. -/
theorem stepKeepsMemoryCanonical : Obligations.StepKeepsMemoryCanonical := by
  intro s t hs h
  cases stepEffect_of_step h with
  | @instr r l t hf hi => exact memInv_of_instrEffect (s := { s with pending := l }) hs hi
  | store l a bytes hspace =>
    obtain ⟨hmem, hstart⟩ := hs
    exact ⟨Memory.writeBytes_wf hspace hmem, hstart⟩
  | @turn t l hp ht => exact show t.MemInv from memInv_of_turnEffect hs ht
  | _ => exact hs

/-! ### The host's stores -/

/-- A store past the address space faults (R60; entry 22). -/
theorem hostStore_fault {s : State} {addr : BitVec 32} {bytes : List Byte}
    (h : Config.addrSpace < addr.toNat + bytes.length) :
    s.hostStore addr bytes = .fault (.noSuchAddress addr bytes.length) :=
  if_pos h

/-- A store to a buffer of the running operation is refused (R74, R258; entry 9). -/
theorem hostStore_refused {s : State} {addr : BitVec 32} {bytes : List Byte} {i : Nat}
    (hspace : addr.toNat + bytes.length ≤ Config.addrSpace) (hb : s.busy = true)
    (hi : i < bytes.length)
    (hbuf : s.inInput (addr.toNat + i) = true ∨ s.inOutput (addr.toNat + i) = true) :
    s.hostStore addr bytes = .refused (.hostStoreToBuffer addr) := by
  have htouch : (List.range bytes.length).any
      (fun i => s.inInput (addr.toNat + i) || s.inOutput (addr.toNat + i)) = true :=
    List.any_eq_true.mpr ⟨i, List.mem_range.mpr hi, by simpa using hbuf⟩
  rw [State.hostStore, if_neg (Nat.not_lt.mpr hspace), hb, htouch]
  rfl

theorem step_of_pending_store {s : State} {addr : BitVec 32} {bytes : List Byte} {rest : List Event}
    (hp : s.pending = .store addr bytes :: rest)
    (hw : touchesWindow s.platform addr.toNat bytes.length = false) :
    step s = { s with pending := rest }.hostStore addr bytes := by
  simp [step, State.fetch, State.otherTurn, hp, hw]

/-- Settles O57: beside the window the step is the host's store, which is refused. -/
theorem hostStoreToRunningBuffersHasNoMeaning :
    Obligations.HostStoreToRunningBuffersHasNoMeaning := by
  intro s addr bytes i rest hp hb hi hbuf hspace hw
  rw [step_of_pending_store hp hw]
  exact hostStore_refused (s := { s with pending := rest }) hspace hb hi hbuf

/-- Byte `i` of a store is the byte it put there. -/
theorem readByte_writeBytes_of_getElem? {m : Memory} {a i : Nat} {b : Byte} {bs : List Byte}
    (hspace : a + bs.length ≤ Config.addrSpace) (hm : m.wf = true) (hb : bs[i]? = some b) :
    (m.writeBytes a bs).readByte (a + i) = b := by
  rw [Memory.readByte_writeBytes _ hspace hm, if_pos (Nat.le_add_right a i), Nat.add_sub_cancel_left,
    hb]
  rfl

/-- Settles O58: beside the window the step is the host's store, which faults past the address space; else
it is not refused, and memory alone is written. -/
theorem hostStoreWritesItsBytes : Obligations.HostStoreWritesItsBytes := by
  intro s addr bytes rest hp hw
  rw [step_of_pending_store hp hw]
  refine ⟨hostStore_fault, fun hspace hm hfree => ?_⟩
  have hbeside : ¬ (s.busy = true ∧ ∃ i, i < bytes.length ∧
      (s.inInput (addr.toNat + i) = true ∨ s.inOutput (addr.toNat + i) = true)) := by
    rintro ⟨hb, i, hi, hbuf⟩
    obtain ⟨hin, hout⟩ := hfree hb i hi
    simp [hin, hout] at hbuf
  refine ⟨_, hostStore_eq_next_iff.mpr ⟨hspace, hbeside, rfl⟩, rfl, fun i b hb => ?named,
    fun a ha => ?others⟩
  case named => exact readByte_writeBytes_of_getElem? hspace hm hb
  case others =>
    exact readByte_writeBytes_of_not_named hspace hm fun i hi e => ha ⟨by omega, by omega⟩

end Sys2Proof.Machine
end

/-!
The two formats of the decoder (`30_encoding.md` R90 to R99): the fields of KEY as numbers, the rows of
the MMIO table and the legal command words, and what follows for decoding and encoding. Last, what a
command word does: the same as the write of it to CMD, and IllegalCommand where it is illegal.
-/
section
namespace Sys2Proof.Machine

open Sys2Proof Sys2Proof.Laws

/-! ### The fields of KEY (R91, R92) -/

theorem keyOffset_eq_ofNat (key : BitVec 13) : keyOffset key = BitVec.ofNat 12 key.toNat := by
  apply BitVec.eq_of_toNat_eq
  simp [keyOffset]

/-- DIR is the top bit of KEY. -/
theorem keyIsWrite_eq_decide (key : BitVec 13) : keyIsWrite key = decide (0x1000 ≤ key.toNat) :=
  BitVec.msb_eq_decide key

theorem offsetReg_eq_ofNat (off : BitVec 12) : offsetReg off = BitVec.ofNat 10 (off.toNat / 4) := by
  apply BitVec.eq_of_toNat_eq
  simp [offsetReg, Nat.shiftRight_eq_div_pow]

theorem regOffset_toNat (reg : BitVec 10) : (regOffset reg).toNat = 4 * reg.toNat := by
  have h := BitVec.toNat_append reg 0#2
  rw [BitVec.toNat_ofNat, Nat.zero_mod, Nat.or_zero, Nat.shiftLeft_eq, Nat.mul_comm] at h
  exact h

/-- R91's test of an access, on numbers. -/
theorem refusedAccess_iff {off : BitVec 12} {size : Nat} :
    refusedAccess off size = true ↔ off.toNat % 4 ≠ 0 ∨ size ≠ 4 := by
  simp [refusedAccess, ← BitVec.toNat_inj]

/-- R91's test of an access reads the same off KEY: DIR stands above the two bits it looks at. -/
theorem refusedAccess_keyOffset_iff {key : BitVec 13} {size : Nat} :
    refusedAccess (keyOffset key) size = true ↔ key.toNat % 4 ≠ 0 ∨ size ≠ 4 := by
  rw [refusedAccess_iff, keyOffset_eq_ofNat, BitVec.toNat_ofNat,
    Nat.mod_mod_of_dvd key.toNat (by decide : 4 ∣ 2 ^ 12)]

/-- The register number of an access, from its KEY. -/
theorem offsetReg_keyOffset (key : BitVec 13) :
    offsetReg (keyOffset key) = BitVec.ofNat 10 (key.toNat / 4) := by
  rw [offsetReg_eq_ofNat, keyOffset_eq_ofNat]
  apply BitVec.eq_of_toNat_eq
  simp only [BitVec.toNat_ofNat]
  omega

/-- Every KEY with OFF[1:0] = 00 is the one of its (DIR, REG). -/
theorem exists_mmioKey_of_aligned {key : BitVec 13} (h : key.toNat % 4 = 0) :
    ∃ isWrite reg, key = mmioKey isWrite (regOffset reg) := by
  refine ⟨keyIsWrite key, offsetReg (keyOffset key), BitVec.eq_of_toNat_eq ?_⟩
  have hlt := key.isLt
  rw [mmioKey_toNat, regOffset_toNat, offsetReg_keyOffset, keyIsWrite_eq_decide, BitVec.toNat_ofNat]
  simp only [decide_eq_true_eq]
  split <;> omega

/-! ### The rows of the MMIO table (R92, R137) -/

theorem decodeMmio_of_refused {key : BitVec 13} {size : Nat} (data : Word)
    (h : refusedAccess (keyOffset key) size = true) :
    decodeMmio key size data = .mmioMisaligned (keyIsWrite key) (keyOffset key) size :=
  if_pos h

/-- An access that R91 admits is the row of its DIR and REG. -/
theorem decodeMmio_of_admitted {key : BitVec 13} {size : Nat} (data : Word)
    (h : ¬ refusedAccess (keyOffset key) size = true) :
    decodeMmio key size data =
      if keyIsWrite key then decodeWrite (offsetReg (keyOffset key)) data
      else decodeRead (offsetReg (keyOffset key)) :=
  if_neg h

/-- A 4-byte read at a register's offset is the register's row; it has no data to look at (R92). -/
theorem decode_readAccess (reg : BitVec 10) (data : Word) :
    decode (.mmio (mmioKey false (regOffset reg)) 4 data) = decodeRead reg := by
  have h := decodeMmio_of_admitted (key := mmioKey false (regOffset reg)) (size := 4) data
  rw [RoundTrip.keyOffset_mmioKey, RoundTrip.keyIsWrite_mmioKey, RoundTrip.offsetReg_regOffset] at h
  exact h (by simp [RoundTrip.refusedAccess_regOffset])

/-- A 4-byte write at a register's offset is the register's row (R92). -/
theorem decode_writeAccess (reg : BitVec 10) (data : Word) :
    decode (.mmio (mmioKey true (regOffset reg)) 4 data) = decodeWrite reg data :=
  RoundTrip.decode_encodeWrite reg data

/-- A register number from 12 on has the row RD.NONE. -/
theorem decodeRead_of_unused {reg : BitVec 10} (h : unusedReg reg = true) :
    decodeRead reg = .rdNone reg :=
  (RoundTrip.decode_encodeRead reg).symm.trans (RoundTrip.rdNone reg h)

/-- A register number from 12 on has the row WR.NONE. -/
theorem decodeWrite_of_unused {reg : BitVec 10} (data : Word) (h : unusedReg reg = true) :
    decodeWrite reg data = .wrNone reg data :=
  (RoundTrip.decode_encodeWrite reg data).symm.trans (RoundTrip.wrNone reg data h)

/-- A register number that is in use is one of the twelve. -/
theorem exists_fin_of_not_unused {reg : BitVec 10} (h : ¬ unusedReg reg = true) :
    ∃ n : Fin 12, reg = BitVec.ofNat 10 n := by
  have hlt : reg.toNat < 12 := by simpa [unusedReg] using h
  exact ⟨⟨reg.toNat, hlt⟩, by simp⟩

theorem decodeRead_wf (reg : BitVec 10) : (decodeRead reg).wf = true := by
  by_cases h : unusedReg reg = true
  · rw [decodeRead_of_unused h]
    exact h
  · obtain ⟨n, rfl⟩ := exists_fin_of_not_unused h
    fin_cases n <;> rfl

theorem decodeWrite_wf (reg : BitVec 10) (data : Word) : (decodeWrite reg data).wf = true := by
  by_cases h : unusedReg reg = true
  · rw [decodeWrite_of_unused data h]
    exact h
  · obtain ⟨n, rfl⟩ := exists_fin_of_not_unused h
    fin_cases n <;> rfl

theorem decodeMmio_wf (key : BitVec 13) (size : Nat) (data : Word) :
    (decodeMmio key size data).wf = true := by
  by_cases h : refusedAccess (keyOffset key) size = true
  · rw [decodeMmio_of_refused data h]
    exact h
  · rw [decodeMmio_of_admitted data h]
    split
    · exact decodeWrite_wf _ data
    · exact decodeRead_wf _

/-- Settles O3: a refused access is R137's. Any other KEY is the one of some (DIR, REG): the twelve named
registers have a row each, and the rest, at 0x030 and above, the row of no register. -/
theorem mmioDecodeTableIsTotal : Obligations.MmioDecodeTableIsTotal := by
  refine ⟨fun key size data h => ?refused, fun key data h => ?row⟩
  case refused =>
    have hdecode := decodeMmio_of_refused data (refusedAccess_keyOffset_iff.mpr h)
    rwa [keyIsWrite_eq_decide, keyOffset_eq_ofNat] at hdecode
  case row =>
    obtain ⟨isWrite, reg, rfl⟩ := exists_mmioKey_of_aligned h
    by_cases hreg : unusedReg reg = true
    case neg =>
      obtain ⟨n, rfl⟩ := exists_fin_of_not_unused hreg
      cases isWrite <;> fin_cases n <;> rfl
    case pos =>
      have h12 : 12 ≤ reg.toNat := of_decide_eq_true hreg
      have hlt := reg.isLt
      rw [mmioKey_toNat, regOffset_toNat]
      cases isWrite with
      | false =>
        rw [decode_readAccess, decodeRead_of_unused hreg]
        simp only [Bool.false_eq_true, if_false, Nat.zero_add]
        rw [if_pos (by omega)]
        iterate 12 rw [if_neg (by omega)]
        simp
      | true =>
        rw [decode_writeAccess, decodeWrite_of_unused data hreg]
        simp only [if_true]
        iterate 13 rw [if_neg (by omega)]
        simp

/-! ### The command words (R96, R97) -/

theorem mem_legalWords_iff {w : Word} :
    w ∈ legalWords ↔ w = 0x00#32 ∨ w = 0x01#32 ∨ w = 0x11#32 ∨ w = 0x21#32 ∨ w = 0x31#32 ∨
      w = 0x41#32 ∨ w = 0x02#32 := by
  simp [legalWords]

/-- Every word but the seven is illegal (R97). -/
theorem decode_cmd_of_not_legal {w : Word} (h : w ∉ legalWords) : decode (.cmd w) = .cmdIllegal w := by
  rw [decode, RoundTrip.decodeCommand_illegal (by simpa using h)]
  rfl

theorem decode_cmd_wf (w : Word) : (decode (.cmd w)).wf = true := by
  by_cases h : w ∈ legalWords
  · rcases mem_legalWords_iff.mp h with rfl | rfl | rfl | rfl | rfl | rfl | rfl <;> rfl
  · rw [decode_cmd_of_not_legal h]
    simpa [Instr.wf] using h

/-- Settles O4: each of the seven words decodes to its own instruction, and any other word is illegal. -/
theorem legalCommandWordsAreExactlySeven : Obligations.LegalCommandWordsAreExactlySeven := by
  intro w
  by_cases hw : w ∈ legalWords
  case pos =>
    rcases mem_legalWords_iff.mp hw with rfl | rfl | rfl | rfl | rfl | rfl | rfl <;> rfl
  case neg =>
    rw [decode_cmd_of_not_legal hw]
    simp only [mem_legalWords_iff, not_or] at hw
    obtain ⟨hnop, hscalar, hp32, hp32x2, hp64, hv128, hclear⟩ := hw
    rw [if_neg hnop, if_neg hscalar, if_neg hp32, if_neg hp32x2, if_neg hp64, if_neg hv128,
      if_neg hclear]

/-! ### Decoding and encoding -/

/-- Settles O2, format by format. -/
theorem decodedInstructionsAreWellFormed : Obligations.DecodedInstructionsAreWellFormed := by
  intro r
  cases r with
  | mmio key size data => exact decodeMmio_wf key size data
  | cmd w => exact decode_cmd_wf w

/-- Settles O1: the named rows of R92 are read back from their register number, and the four instructions
with a condition on their operands need it: a register number below 12 is a named row, an admitted access
is no refused one, and a legal word is a command of its own. -/
theorem decodeOfEncodeIsIdentity : Obligations.DecodeOfEncodeIsIdentity := by
  intro i hwf
  cases i with
  | rdId | rdCap | rdCtrl | rdCmd | rdStatus | rdSrc | rdDst | rdWidth | rdHeight | rdDstLen
  | rdProgress | rdFaultAddr => exact RoundTrip.decode_encodeRead _
  | wrId data | wrCap data | wrCtrl data | wrCmd data | wrStatus data | wrSrc data | wrDst data
  | wrWidth data | wrHeight data | wrDstLen data | wrProgress data | wrFaultAddr data =>
    exact RoundTrip.decode_encodeWrite _ data
  | rdNone reg => exact RoundTrip.rdNone reg hwf
  | wrNone reg data => exact RoundTrip.wrNone reg data hwf
  | mmioMisaligned isWrite off size => exact RoundTrip.mmioMisaligned isWrite off size hwf
  | nop | startScalar | startP32 | startP32x2 | startP64 | startV128 | clear => rfl
  | cmdIllegal w => exact RoundTrip.cmdIllegal w hwf

/-- Settles O5: each word is the encoding of its instruction, so the round trip decodes it. -/
theorem sampleWordsDecode : Obligations.SampleWordsDecode :=
  ⟨decodeOfEncodeIsIdentity .rdStatus rfl,
    decodeOfEncodeIsIdentity (.wrWidth 0x500#32) rfl,
    decodeOfEncodeIsIdentity (.wrCmd 0x41#32) rfl,
    decodeOfEncodeIsIdentity (.rdNone 12#10) rfl,
    decodeOfEncodeIsIdentity (.mmioMisaligned false 0x011#12 4) rfl,
    decodeOfEncodeIsIdentity .startP64 rfl,
    decodeOfEncodeIsIdentity (.cmdIllegal 0x51#32) rfl⟩

/-! ### What a command word does (R97, R99, R125) -/

/-- A decoded command means the same as the instruction that it is. -/
theorem exec_toInstr (c : Command) (s : State) : exec c.toInstr s = runCommand c s := by
  cases c with
  | start v => cases v <;> rfl
  | nop | clear | illegal w => rfl

/-- Settles O7: both sides run the command that the word decodes to. -/
theorem commandWordRunsAsCmdWrite : Obligations.CommandWordRunsAsCmdWrite :=
  fun w s => exec_toInstr (decodeCommand w) s

/-- Where the engine is idle an error entry changes the three status fields alone: BUSY is 0 already. -/
theorem raiseError_of_not_busy {s : State} (e : EngineError) (h : s.busy = false) :
    s.raiseError e = { s with done := false, err := true, errcode := some e } := by
  rw [State.raiseError, ← busy_eq_false_iff.mp h]

theorem exec_cmdIllegal (w : Word) (s : State) :
    exec (.cmdIllegal w) s = .next (s.unlessBusy (s.raiseError .illegalCommand)) := rfl

/-- Settles O17: while BUSY = 0 the word takes effect, and its effect is the error entry from idle. -/
theorem illegalWordRaisesIllegalCommand : Obligations.IllegalWordRaisesIllegalCommand := by
  intro w s hb
  refine ⟨?_, fun _ => rfl⟩
  rw [exec_cmdIllegal, unlessBusy_idle _ hb, raiseError_of_not_busy _ hb]

end Sys2Proof.Machine
end

/-!
One step of the engine (`40_control.md` R131 to R134; `44_equivalence.md` R210): where the memory port
admits its accesses it writes its group and advances row-major, and at the first refused access it ends
the operation with BusError.
-/
section
namespace Sys2Proof.Machine

open Sys2Proof

/-! ### The turn of a running engine -/

theorem engineTurn_of_run {s : State} {y k : Nat} (hp : s.phase = .run y k) :
    s.engineTurn = s.engineStep y k := by
  simp [State.engineTurn, hp]

/-- Where all its accesses are admitted the turn writes the group's bytes and advances. -/
theorem engineTurn_of_admitted {s : State} {y k : Nat} (hp : s.phase = .run y k)
    (ha : s.stepAdmitted y k) :
    s.engineTurn = { s with mem := s.groupMem y k }.advance s.lastVar y k := by
  rcases engineStep_cases s y k with ⟨a, href, -⟩ | ⟨-, e⟩
  · cases (firstRefused_eq_none_iff.mpr ha).symm.trans href
  · exact (engineTurn_of_run hp).trans e

/-- The first refused access of a list, by its place in it. -/
theorem firstRefused_of_getElem? {p : Config.Platform} {a n : Nat} (hno : memOk p a n = false) :
    ∀ {l : List (Nat × Nat)} {i : Nat}, l[i]? = some (a, n) →
      (∀ j q, j < i → l[j]? = some q → memOk p q.1 q.2 = true) → firstRefused p l = some a
  | [], _, hi, _ => by simp at hi
  | q :: l, 0, hi, _ => by
    obtain rfl : q = (a, n) := by simpa using hi
    simp [firstRefused, hno]
  | (b, m) :: l, i + 1, hi, hbefore => by
    have hfirst : memOk p b m = true := hbefore 0 (b, m) (Nat.zero_lt_succ i) rfl
    rw [firstRefused, if_pos hfirst]
    exact firstRefused_of_getElem? hno (by simpa using hi)
      fun j q hj hq => hbefore (j + 1) q (Nat.succ_lt_succ hj) (by simpa using hq)

/-- At a refused access the turn is the BusError at the first one's address, and nothing else. -/
theorem engineTurn_of_refused {s : State} {y k a : Nat} (hp : s.phase = .run y k)
    (hno : firstRefused s.platform (s.cursorAccesses y k) = some a) :
    s.engineTurn = s.busError a := by
  rcases engineStep_cases s y k with ⟨a', hno', e⟩ | ⟨ha, -⟩
  · obtain rfl := Option.some.inj (hno.symm.trans hno')
    exact (engineTurn_of_run hp).trans e
  · cases (firstRefused_eq_none_iff.mpr ha).symm.trans hno

/-- With one engine turn next the step is that turn, whatever is left on the list of events. -/
theorem step_eq_engineTurn {s : State} {rest : List Event} (h : s.engineTurnsNext 1 rest) :
    step s = .next { s.engineTurn with pending := rest } := by
  rw [step_of_engineTurnsNext_one h, engineTurn_pending]

/-! ### What a step writes -/

@[simp] theorem advance_mem (s : State) (v : Variant) (y k : Nat) :
    (s.advance v y k).mem = s.mem := by
  rcases advance_cases s v y k with ⟨-, e⟩ | ⟨-, e⟩ <;> rw [e]

/-- Settles O36: memory after the step is `groupMem`, whose bytes are the averages inside the group and
the old ones outside. -/
theorem engineStepWritesRoundedAverages : Obligations.EngineStepWritesRoundedAverages := by
  intro s y k rest hp hnext hm ha
  have hmem : s.engineTurn.mem = s.groupMem y k := by
    rw [engineTurn_of_admitted hp ha, advance_mem]
  refine ⟨_, step_eq_engineTurn hnext, fun j hj => ?group, fun a hout => ?others⟩
  case group =>
    rw [hmem, readByte_groupMem ha hm, if_pos (by omega), Nat.add_sub_cancel_left]
    rfl
  case others => rw [hmem, readByte_groupMem ha hm, if_neg hout]

/-- Inside the image the cursor moves right, then to the next row, and after the last group of the last
row the operation is done (R132, R133). -/
theorem advance_eq {s : State} {v : Variant} {y k : Nat} (hy : y < s.opH / 2) :
    s.advance v y k =
      { s with
        progress := s.progress + BitVec.ofNat 32 (outBytes v)
        done := if k + 1 < s.opW / columns v ∨ y + 1 ≠ s.opH / 2 then s.done else true
        phase :=
          if k + 1 < s.opW / columns v then .run y (k + 1)
          else if y + 1 ≠ s.opH / 2 then .run (y + 1) 0
          else .idle } := by
  by_cases hk : k + 1 < s.opW / columns v
  · have hrow : s.nextRow v y k = y := if_pos hk
    have hgroup : s.nextGroup v k = k + 1 := if_pos hk
    rcases advance_cases s v y k with ⟨hr, -⟩ | ⟨-, e⟩
    · omega
    · simp [e, hrow, hgroup, hk]
  · have hrow : s.nextRow v y k = y + 1 := if_neg hk
    have hgroup : s.nextGroup v k = 0 := if_neg hk
    rcases advance_cases s v y k with ⟨hr, e⟩ | ⟨hr, e⟩ <;> rw [hrow] at hr
    · simp [e, hk, hr]
    · simp [e, hrow, hgroup, hk, hr]

/-- Settles O37: the admitted turn is the advance of the state with the group written. -/
theorem engineStepAdvancesRowMajor : Obligations.EngineStepAdvancesRowMajor := by
  intro s y k rest hp hnext hy ha
  refine ⟨s.groupMem y k, ?_⟩
  rw [step_eq_engineTurn hnext, engineTurn_of_admitted hp ha,
    advance_eq (s := { s with mem := s.groupMem y k }) hy]
  rfl

/-- Settles O38: the step is the BusError at the address of the first refused access, which writes no
memory. -/
theorem busErrorIsPrecise : Obligations.BusErrorIsPrecise := by
  intro s y k i a n rest hp hnext hi hno hbefore
  refine ⟨_, ?_, rfl, fun _ => rfl⟩
  rw [step_eq_engineTurn hnext,
    engineTurn_of_refused hp (firstRefused_of_getElem? hno hi hbefore)]
  rfl

end Sys2Proof.Machine
end

/-!
The register port (`40_control.md` R120 to R123, R130, R137; `30_encoding.md` R91): the step that runs a
register access, given by its KEY or by the host's address, and what the reads and writes of registers do.
-/
section
namespace Sys2Proof.Machine

open Sys2Proof

/-! ### The step runs the access that is next on the port -/

theorem step_of_pending_access {s : State} {r : Request} {rest : List Event}
    (h : s.pending = .access r :: rest) : step s = exec (decode r) { s with pending := rest } := by
  simp [step, State.fetch, h]

/-- A host read at ENGINE_BASE + OFF is the read access at OFF (R91). -/
theorem step_of_window_load {s : State} {addr : BitVec 32} {off : BitVec 12} {size : Nat}
    {rest : List Event} (hp : s.pending = .load addr size :: rest)
    (haddr : addr.toNat = s.platform.engineBase + off.toNat) :
    step s = exec (decode (.mmio (mmioKey false off) size 0#32)) { s with pending := rest } := by
  simp [step, State.fetch, hp, touchesWindow_of_offset size haddr, busRequest, windowOffset_eq haddr]

/-- A host write at ENGINE_BASE + OFF is the write access at OFF, of its size and its DATA (R91). -/
theorem step_of_window_store {s : State} {addr : BitVec 32} {off : BitVec 12} {bytes : List Byte}
    {rest : List Event} (hp : s.pending = .store addr bytes :: rest)
    (haddr : addr.toNat = s.platform.engineBase + off.toNat) :
    step s =
      exec (decode (.mmio (mmioKey true off) bytes.length (bytesWord bytes)))
        { s with pending := rest } := by
  simp [step, State.fetch, hp, touchesWindow_of_offset bytes.length haddr, busRequest,
    windowOffset_eq haddr]

/-- KEY of an access, DIR·2^12 + OFF, as a numeral of 13 bits (R92). -/
theorem mmioKey_eq_ofNat (isWrite : Bool) (off : BitVec 12) :
    mmioKey isWrite off = BitVec.ofNat 13 ((if isWrite then 0x1000 else 0) + off.toNat) :=
  BitVec.eq_of_toNat_eq (by
    have hlt := (mmioKey isWrite off).isLt
    rw [mmioKey_toNat] at hlt ⊢
    rw [BitVec.toNat_ofNat, Nat.mod_eq_of_lt hlt])

/-- Settles O6: an access on the list is its own request, and the host's address gives the request with
the KEY of its offset. -/
theorem stepRunsDecodedInstruction : Obligations.StepRunsDecodedInstruction := by
  refine fun s rest => ⟨fun r => step_of_pending_access, fun addr off haddr =>
    ⟨fun size hp => ?read, fun data hp => ?write⟩⟩
  case read =>
    rw [step_of_window_load hp haddr, mmioKey_eq_ofNat]
    simp
  case write =>
    rw [step_of_window_store hp haddr, mmioKey_eq_ofNat, bytesWord_wordBytes]
    rfl

/-! ### The refused access (R137) -/

theorem exec_mmioMisaligned (isWrite : Bool) (off : BitVec 12) (size : Nat) (s : State) :
    exec (.mmioMisaligned isWrite off size) s = .fault (.mmioBusError isWrite off size) := rfl

/-- An access that breaks R91 is the refused access of its own DIR, OFF and SIZE. -/
theorem decode_refusedAccess {isWrite : Bool} {off : BitVec 12} {size : Nat} (data : Word)
    (h : off.toNat % 4 ≠ 0 ∨ size ≠ 4) :
    decode (.mmio (mmioKey isWrite off) size data) = .mmioMisaligned isWrite off size := by
  have hdecode := decodeMmio_of_refused (key := mmioKey isWrite off) (size := size) data
  rw [Laws.RoundTrip.keyOffset_mmioKey, Laws.RoundTrip.keyIsWrite_mmioKey] at hdecode
  exact hdecode (refusedAccess_iff.mpr h)

/-- Settles O14: by its KEY or by the host's address, the access decodes to the refused one, which
faults. -/
theorem misalignedAccessFaultsTheHostStep : Obligations.MisalignedAccessFaultsTheHostStep := by
  refine ⟨exec_mmioMisaligned, fun s key size data rest hp hbad => ?byKey,
    fun s addr off rest haddr => ⟨fun size hp hbad => ?read, fun bytes hp hbad => ?write⟩⟩
  case byKey =>
    obtain ⟨refused, -⟩ := mmioDecodeTableIsTotal
    rw [step_of_pending_access hp, refused key size data hbad, exec_mmioMisaligned]
  case read =>
    rw [step_of_window_load hp haddr, decode_refusedAccess _ hbad, exec_mmioMisaligned]
  case write =>
    rw [step_of_window_store hp haddr, decode_refusedAccess _ hbad, exec_mmioMisaligned]

/-! ### What an instruction answers, with its memory frame -/

/-- An instruction's answer is all there is to say: none of them touches memory. -/
theorem runsTo_of_exec {i : Instr} {s t : State} (h : exec i s = .next t) : RunsTo i s t :=
  ⟨h, instructionsLeaveMemory i s t h⟩

/-- An instruction under the busy-lock takes effect while BUSY = 0 (R123, R125). -/
theorem runsTo_of_not_busy {i : Instr} {s t : State} (h : exec i s = .next (s.unlessBusy t))
    (hb : s.busy = false) : RunsTo i s t :=
  runsTo_of_exec (by rw [h, unlessBusy_idle t hb])

/-- An instruction under the busy-lock only sets IGNW while BUSY = 1 (R123, R135). -/
theorem runsTo_of_busy {i : Instr} {s t : State} (h : exec i s = .next (s.unlessBusy t))
    (hb : s.busy = true) : RunsTo i s { s with ignw := true } :=
  runsTo_of_exec (by rw [h, unlessBusy_busy t hb, State.ignoreWrite])

/-! ### Reads (R121) -/

theorem readReg_cap (s : State) :
    s.readReg .cap = if s.platform.hasV128 then 0x0000001F#32 else 0x0000000F#32 := by
  unfold State.readReg
  cases s.platform.hasV128 <;> rfl

theorem readReg_ctrl (s : State) : s.readReg .ctrl = if s.ctrlIE then 1#32 else 0#32 := by
  unfold State.readReg
  cases s.ctrlIE <;> rfl

/-- A read of a register answers the register's value and writes nothing else. -/
theorem runsTo_of_readAccess {i : Instr} {s : State} (r : Reg) {w : Word}
    (h : exec i s = s.readAccess r) (hw : s.readReg r = w) :
    RunsTo i s { s with readData := w } :=
  runsTo_of_exec (by rw [h, State.readAccess, hw, State.respond])

/-- Settles O8: each read is the access to its register, whose value is a field or a constant but for the
two registers that are put together from bits. -/
theorem registerReadsReturnTheirValues : Obligations.RegisterReadsReturnTheirValues := fun s =>
  ⟨runsTo_of_readAccess .id rfl rfl, runsTo_of_readAccess .cap rfl (readReg_cap s),
    runsTo_of_readAccess .ctrl rfl (readReg_ctrl s), runsTo_of_readAccess .cmd rfl rfl,
    runsTo_of_readAccess .status rfl rfl, runsTo_of_readAccess .src rfl rfl,
    runsTo_of_readAccess .dst rfl rfl, runsTo_of_readAccess .width rfl rfl,
    runsTo_of_readAccess .height rfl rfl, runsTo_of_readAccess .dstLen rfl rfl,
    runsTo_of_readAccess .progress rfl rfl, runsTo_of_readAccess .faultAddr rfl rfl⟩

/-! ### Writes (R122, R123, R130) -/

/-- Settles O11: the write answers the state with the new IE, from which the IRQ level and the value of
CTRL are computed. -/
theorem ctrlWriteStoresInterruptEnable : Obligations.CtrlWriteStoresInterruptEnable := by
  intro data s
  refine ⟨runsTo_of_exec rfl, rfl, ?_⟩
  rw [BitVec.and_one_eq_setWidth_ofBool_getLsbD]
  rfl

/-- Settles O12: all five writes are under the one busy-lock. -/
theorem configurationWritesAreBusyLocked : Obligations.ConfigurationWritesAreBusyLocked := by
  intro data s
  have src : exec (.wrSrc data) s = .next (s.unlessBusy { s with src := data }) := rfl
  have dst : exec (.wrDst data) s = .next (s.unlessBusy { s with dst := data }) := rfl
  have width : exec (.wrWidth data) s = .next (s.unlessBusy { s with width := data }) := rfl
  have height : exec (.wrHeight data) s = .next (s.unlessBusy { s with height := data }) := rfl
  have dstLen : exec (.wrDstLen data) s = .next (s.unlessBusy { s with dstLen := data }) := rfl
  exact ⟨fun hb => ⟨runsTo_of_not_busy src hb, runsTo_of_not_busy dst hb,
      runsTo_of_not_busy width hb, runsTo_of_not_busy height hb, runsTo_of_not_busy dstLen hb⟩,
    fun hb => ⟨runsTo_of_busy src hb, runsTo_of_busy dst hb, runsTo_of_busy width hb,
      runsTo_of_busy height hb, runsTo_of_busy dstLen hb⟩⟩

/-- Settles O13: a write to a read-only register answers the state itself, and all five are that. -/
theorem readOnlyWritesChangeNothing : Obligations.ReadOnlyWritesChangeNothing := by
  intro data s
  have write {i : Instr} (h : exec i s = s.readOnlyWrite data) : RunsTo i s s := runsTo_of_exec h
  exact ⟨write rfl, write rfl, write rfl, write rfl, write rfl⟩

end Sys2Proof.Machine
end

/-!
The commands (`40_control.md` R124 to R129, R135): what each word does while BUSY = 0 and while BUSY = 1,
and START's checks in the order of R126, with what a refused and an accepted START leave.
-/
section
namespace Sys2Proof.Machine

open Sys2Proof

/-! ### NOP, CLEAR and the busy-lock of the commands (R128, R129, R135) -/

theorem exec_nop (s : State) : exec .nop s = .next s := rfl

theorem exec_clear (s : State) : exec .clear s = .next (s.unlessBusy s.clearStatus) := rfl

theorem exec_startInstr (v : Variant) (s : State) :
    exec (startInstr v) s = .next (s.unlessBusy (s.startOperation v)) := by
  cases v <;> rfl

/-- The one word of NOP (R96). -/
theorem eq_nopWord_of_decodeCommand {w : Word} (h : decodeCommand w = .nop) : w = 0x0#32 := by
  have hw := mem_legalWords_of_decodeCommand h (by simp)
  simp only [legalWords_eq, List.mem_cons, List.mem_append, List.mem_map, List.not_mem_nil,
    or_false] at hw
  rcases hw with rfl | ⟨v, -, rfl⟩ | rfl
  · rfl
  · cases (decodeCommand_startWord v).symm.trans h
  · cases decodeCommand_clearWord.symm.trans h

/-- While BUSY = 1 every command but NOP is ignored and sets IGNW. -/
theorem runCommand_of_busy {c : Command} {s : State} (hc : c ≠ .nop) (hb : s.busy = true) :
    runCommand c s = .next s.ignoreWrite := by
  have ignored (t : State) : Host.Outcome.next (φ := Fault) (ρ := Refusal) (s.unlessBusy t) =
      .next s.ignoreWrite := by rw [unlessBusy_busy t hb]
  cases c with
  | nop => exact absurd rfl hc
  | start v => cases v <;> exact ignored _
  | clear => exact ignored _
  | illegal w => exact ignored _

/-- While BUSY = 1 every command word but NOP's is ignored and sets IGNW. -/
theorem exec_commandWord_of_busy {w : Word} {s : State} (hw : w ≠ 0#32) (hb : s.busy = true) :
    exec (decode (.cmd w)) s = .next s.ignoreWrite :=
  (exec_toInstr _ s).trans
    (runCommand_of_busy (fun hnop => hw (eq_nopWord_of_decodeCommand hnop)) hb)

/-- Settles O15: any other word while BUSY = 1 leads to a state with IGNW = 1. -/
theorem nopChangesNothing : Obligations.NopChangesNothing := by
  refine fun s => ⟨runsTo_of_exec (exec_nop s), fun hb hignw w hw hsame => ?_⟩
  have hstate : s.ignoreWrite = s :=
    Host.Outcome.next.inj ((exec_commandWord_of_busy hw hb).symm.trans hsame)
  have hraised : s.ignw = true := by rw [← hstate, ignoreWrite_ignw]
  exact absurd (hraised.symm.trans hignw) (by simp)

/-- Settles O16: CLEAR is under the busy-lock, and with DONE and ERR the IRQ level falls. -/
theorem clearClearsCompletionAndErrorStatus : Obligations.ClearClearsCompletionAndErrorStatus :=
  fun s => ⟨fun hb => ⟨runsTo_of_not_busy (exec_clear s) hb, by simp [State.irq]⟩,
    runsTo_of_busy (exec_clear s)⟩

/-- Settles O19: START, CLEAR and the illegal words are under the busy-lock, and every word but NOP's is
one of theirs. -/
theorem commandsWhileBusyOnlySetIgnw : Obligations.CommandsWhileBusyOnlySetIgnw := fun s hb =>
  ⟨fun v => runsTo_of_busy (exec_startInstr v s) hb, runsTo_of_busy (exec_clear s) hb,
    fun w => runsTo_of_busy (exec_cmdIllegal w s) hb,
    fun _ hw => runsTo_of_exec (exec_commandWord_of_busy hw hb)⟩

/-! ### The write of CMD (R124, R125) -/

/-- The write of CMD answers what the instruction answers that the word decodes to. -/
theorem runsTo_wrCmd {w : Word} {i : Instr} {s t : State} (hw : decode (.cmd w) = i)
    (h : RunsTo i s t) : RunsTo (.wrCmd w) s t := by
  obtain ⟨hexec, hmem⟩ := h
  rw [← hw, commandWordRunsAsCmdWrite] at hexec
  exact ⟨hexec, hmem⟩

theorem decode_startWord (v : Variant) : decode (.cmd (startWord v)) = startInstr v := by
  rw [decode, decodeCommand_startWord]
  cases v <;> rfl

theorem decode_nopWord : decode (.cmd 0x0#32) = .nop := congrArg Command.toInstr decodeCommand_nopWord

theorem decode_clearWord : decode (.cmd 0x2#32) = .clear :=
  congrArg Command.toInstr decodeCommand_clearWord

/-- Settles O18: the write of CMD is the instruction of its word, and each of those has its own
statement. -/
theorem cmdWriteFollowsTheDecodeRule : Obligations.CmdWriteFollowsTheDecodeRule := by
  intro w s
  have nop : w = 0#32 → RunsTo (.wrCmd w) s s := by
    rintro rfl
    exact runsTo_wrCmd decode_nopWord (runsTo_of_exec (exec_nop s))
  refine ⟨fun _ => nop, fun hb hw => ?ignored, fun _ => nop, fun hb hw => ?clear,
    fun v hb hw => ?start, fun hb hw => ?illegal⟩
  case ignored => exact runsTo_wrCmd rfl (runsTo_of_exec (exec_commandWord_of_busy hw hb))
  case clear =>
    subst hw
    exact runsTo_wrCmd decode_clearWord (runsTo_of_not_busy (exec_clear s) hb)
  case start =>
    subst hw
    have hstart := runsTo_of_not_busy (exec_startInstr v s) hb
    exact ⟨_, runsTo_wrCmd (decode_startWord v) hstart, hstart⟩
  case illegal =>
    exact runsTo_wrCmd (decode_cmd_of_not_legal hw) (illegalWordRaisesIllegalCommand w s hb)

/-! ### START's checks (R126) -/

theorem badDimensions_iff {v : Variant} {s : State} :
    badDimensions v s ↔ s.opW % 2 ≠ 0 ∨ s.opH % 2 ≠ 0 ∨ s.opW % granularity v ≠ 0 := by
  simp only [badDimensions, Nat.dvd_iff_mod_eq_zero, State.opW, State.opH]
  omega

theorem badAlignment_iff {v : Variant} {s : State} :
    badAlignment v s ↔ s.opS % alignment v ≠ 0 ∨ s.opD % alignment v ≠ 0 := by
  simp only [badAlignment, Nat.dvd_iff_mod_eq_zero, State.opS, State.opD, ne_eq]

open Classical in
/-- The checks in their order, in the words of R126. -/
theorem startCheck_eq (v : Variant) (s : State) :
    startCheck v s =
      if badVariant v s then some .unsupportedVariant
      else if badDimensions v s then some .invalidDimensions
      else if badLength s then some .bufferTooSmall
      else if badAlignment v s then some .misalignedBuffer
      else if badRange s then some .addressOverflow
      else if badOverlap s then some .bufferOverlap
      else none :=
  if_congr Iff.rfl rfl <| if_congr badDimensions_iff.symm rfl <| if_congr Iff.rfl rfl <|
    if_congr badAlignment_iff.symm rfl <| if_congr Iff.rfl rfl <| if_congr Iff.rfl rfl rfl

/-- A START whose first failing check reports `e` is refused with `e`. -/
theorem runsTo_refusedStart {v : Variant} {s : State} {e : EngineError} (hb : s.busy = false)
    (he : startCheck v s = some e) : RunsTo (startInstr v) s (refusedStart v s e) := by
  have hstart : s.startOperation v = refusedStart v s e := by
    rw [State.startOperation, he]
    rfl
  exact hstart ▸ runsTo_of_not_busy (exec_startInstr v s) hb

/-! ### An accepted START (R127) -/

/-- An accepted START with an empty output is done at once. -/
theorem startOperation_of_empty {v : Variant} {s : State} (hacc : startAccepted v s)
    (hN : s.opN = 0) :
    s.startOperation v = { s.beginStart v with done := true, err := false, errcode := none } := by
  rcases startOperation_cases s v with ⟨e, he, -⟩ | ⟨-, -, h⟩ | ⟨-, hpos, -⟩
  · cases he.symm.trans (startCheck_eq_none_iff.mpr hacc)
  · exact h
  · exact absurd hN (Nat.ne_of_gt hpos)

/-- An accepted START with some output enters RUN at (0, 0). -/
theorem startOperation_of_nonempty {v : Variant} {s : State} (hacc : startAccepted v s)
    (hN : 0 < s.opN) :
    s.startOperation v =
      { s.beginStart v with
        done := false, err := false, errcode := none, phase := .run 0 0, memAtStart := s.mem } := by
  rcases startOperation_cases s v with ⟨e, he, -⟩ | ⟨-, hzero, -⟩ | ⟨-, -, h⟩
  · cases he.symm.trans (startCheck_eq_none_iff.mpr hacc)
  · exact absurd hzero (Nat.ne_of_gt hN)
  · exact h

/-- Settles O21: the two outcomes of an accepted START. -/
theorem acceptedStartBeginsOrCompletes : Obligations.AcceptedStartBeginsOrCompletes := by
  intro v s hb hacc
  have hstart := runsTo_of_not_busy (exec_startInstr v s) hb
  exact ⟨fun hN => startOperation_of_empty hacc hN ▸ hstart,
    fun hN => startOperation_of_nonempty hacc hN ▸ hstart⟩

/-- Settles O20: the chain of checks ends at the first condition that is met, and where none is, START is
accepted with DONE = 1 or BUSY = 1. -/
theorem startReportsTheFirstFailingCheck : Obligations.StartReportsTheFirstFailingCheck := by
  intro v s hb
  refine ⟨fun hvar => ?_, fun hvar hdim => ?_, fun hvar hdim hlen => ?_,
    fun hvar hdim hlen halign => ?_, fun hvar hdim hlen halign hrange => ?_,
    fun hvar hdim hlen halign hrange hoverlap => ?_, fun hacc => ?accepted⟩
  case accepted =>
    obtain ⟨empty, nonempty⟩ := acceptedStartBeginsOrCompletes v s hb hacc
    rcases Nat.eq_zero_or_pos s.opN with hN | hN
    · exact ⟨_, empty hN, rfl, rfl, rfl, rfl, rfl, iff_of_true rfl hN,
        (congrArg not hb).symm⟩
    · exact ⟨_, nonempty hN, rfl, rfl, rfl, rfl, rfl,
        iff_of_false (by simp) (Nat.ne_of_gt hN), rfl⟩
  all_goals
    apply runsTo_refusedStart hb
    simp [startCheck_eq, *]

end Sys2Proof.Machine
end

/-!
An accepted operation to its end (`40_control.md` R127, R133; `44_equivalence.md` R210, R212;
`70_reset_and_hazards.md` R268): where the platform admits its buffers and the host leaves it alone, each
turn of the engine adds one group to PROGRESS, and the last one completes it.
-/
section
namespace Sys2Proof.Machine

open Sys2Proof

/-! ### The accesses of an operation whose buffers are admitted -/

/-- Every access of a step lies in one of the buffers, so where these are admitted the step is. -/
theorem State.RunInv.stepAdmitted {s : State} {y k : Nat} (hinv : s.RunInv) (hp : s.phase = .run y k)
    (hbuf : s.buffersAdmitted) : s.stepAdmitted y k := by
  obtain ⟨-, hreads, hwrite⟩ := accessesAreAlignedAndInsideTheBuffers s y k hinv hp
  have hlast : (s.cursorAccesses y k).getLast? = some (s.dstAddr s.lastVar y k, outBytes s.lastVar) :=
    getLast?_stepAccesses _ _ _ _
  intro q hq
  rw [← List.dropLast_append_getLast? _ hlast, List.mem_append, List.mem_singleton] at hq
  rcases hq with hread | rfl
  · have hwidth : q.2 = readWidth s.lastVar := width_of_mem_dropLast_stepAccesses _ _ _ _ q hread
    have hpos : 0 < readWidth s.lastVar := by cases s.lastVar <;> decide
    exact hbuf _ _ (hwidth ▸ hpos) (.inl (hreads q hread))
  · have hpos : 0 < outBytes s.lastVar := by cases s.lastVar <;> decide
    exact hbuf _ _ hpos (.inr (hwrite _ hlast))

/-- The group after which the cursor leaves the image is the last one of the output. -/
theorem State.RunsAt.progress_add_eq_opN {s : State} {y k : Nat} (h : s.RunsAt y k)
    (hr : s.nextRow s.lastVar y k = s.opH / 2) : s.progress.toNat + outBytes s.lastVar = s.opN := by
  have hrow := h.row
  have hgroup := h.group
  by_cases hin : k + 1 < s.rowGroups
  · rw [show s.nextRow s.lastVar y k = y from if_pos hin] at hr
    omega
  · rw [show s.nextRow s.lastVar y k = y + 1 from if_neg hin] at hr
    rw [h.progress, h.opN_eq, State.groupStart, ← hr, show s.rowGroups = k + 1 by omega]
    ring

/-! ### An operation that nothing disturbs -/

/-- In `x` the operation that START began in `s` is running: on the parameters, the input and the output
of `s`, with every byte outside its output as it was, and `left` groups of its output still to write. -/
structure State.RunsOn (s x : State) (left : Nat) : Prop where
  params   : x.src = s.src ∧ x.dst = s.dst ∧ x.width = s.width ∧ x.height = s.height
  started  : x.memAtStart = s.mem
  inv      : x.Inv
  busy     : x.busy = true
  admitted : x.buffersAdmitted
  progress : x.progress.toNat + left * outBytes x.lastVar = x.opN
  frame    : ∀ a, ¬ (x.opD ≤ a ∧ a < x.opD + x.opN) → x.mem.readByte a = s.mem.readByte a

/-- What is left of an operation does not depend on the events to come, nor on what the host has read. -/
theorem State.RunsOn.withHost {s x : State} {left : Nat} (h : s.RunsOn x left) (l : List Event)
    (w : Word) : s.RunsOn { x with pending := l, readData := w } left := by
  obtain ⟨hparams, hstart, ⟨hstatus, hrun, hcontents, hmem⟩, hb, hbuf, hprog, hframe⟩ := h
  exact ⟨hparams, hstart, ⟨hstatus, hrun, hcontents, hmem⟩, hb, hbuf, hprog, hframe⟩

/-- Nor does what a completed operation leaves. -/
theorem State.CompletedTo.withHost {s t : State} (h : s.CompletedTo t) (l : List Event) (w : Word) :
    s.CompletedTo { t with pending := l, readData := w } := by
  obtain ⟨hb, hdone, herr, hprog, houtput, hframe⟩ := h
  exact ⟨hb, hdone, herr, hprog, houtput, hframe⟩

/-- An accepted START begins an operation with all of its groups to write. -/
theorem runsOn_startOperation {s : State} {v : Variant} (hb : s.busy = false) (hm : s.mem.wf = true)
    (hacc : startAccepted v s) (hN : 0 < s.opN) (hbuf : s.buffersAdmitted) :
    s.RunsOn (s.startOperation v) (s.opH / 2 * (s.opW / columns v)) := by
  have hstatus := statusInv_startOperation v hb
  rw [startOperation_of_nonempty hacc hN] at hstatus ⊢
  have hat : State.RunsAt _ 0 0 := runsAt_zero (s := { s.beginStart v with
    done := false, err := false, errcode := none, phase := .run 0 0, memAtStart := s.mem }) hacc hN rfl
  exact {
    params := ⟨rfl, rfl, rfl, rfl⟩
    started := rfl
    inv := ⟨hstatus, runInv_of_runsAt rfl hat,
      fun _ => ⟨fun _ _ => rfl, fun i _ => (if_neg (Nat.not_lt_zero i)).symm⟩, hm, hm⟩
    busy := rfl
    admitted := hbuf
    progress := (Nat.zero_add _).trans hat.opN_eq.symm
    frame := fun _ _ => rfl }

/-! ### The turns of the engine -/

theorem outBytes_pos (v : Variant) : 0 < outBytes v := by
  cases v <;> decide

section RunsOn

variable {s x : State} {left : Nat}

theorem State.RunsOn.opD_eq (h : s.RunsOn x left) : x.opD = s.opD := by
  obtain ⟨-, hdst, -⟩ := h.params
  rw [State.opD, hdst, State.opD]

theorem State.RunsOn.opN_eq (h : s.RunsOn x left) : x.opN = s.opN := by
  obtain ⟨-, -, hwidth, hheight⟩ := h.params
  simp only [State.opN, State.opW, State.opH, hwidth, hheight]

theorem State.RunsOn.outByte_eq (h : s.RunsOn x left) (m : Memory) (i : Nat) :
    x.outByte m i = s.outByte m i := by
  obtain ⟨hsrc, -, hwidth, -⟩ := h.params
  simp only [State.outByte, State.outSample, State.inSample, State.opW, State.opS, hsrc, hwidth]

/-- Where the operation stands: its cursor, the step there admitted. -/
theorem State.RunsOn.exists_cursor (h : s.RunsOn x left) :
    ∃ y k, x.phase = .run y k ∧ x.RunsAt y k ∧ x.stepAdmitted y k := by
  obtain ⟨y, k, hp⟩ := busy_eq_true_iff.mp h.busy
  exact ⟨y, k, hp, h.inv.run.runsAt hp, h.inv.run.stepAdmitted hp h.admitted⟩

/-- While it runs there is a group to write. -/
theorem State.RunsOn.exists_left_eq (h : s.RunsOn x left) : ∃ n, left = n + 1 := by
  obtain ⟨y, k, -, hat, -⟩ := h.exists_cursor
  have hle := hat.progress_add_le
  have hpos := outBytes_pos x.lastVar
  have hprog := h.progress
  cases left with
  | zero => omega
  | succ n => exact ⟨n, rfl⟩

/-- A step of the operation writes inside its output only. -/
theorem State.RunsOn.readByte_groupMem_frame (h : s.RunsOn x left) {y k : Nat} (hat : x.RunsAt y k)
    (ha : x.stepAdmitted y k) {a : Nat} (hout : ¬ (x.opD ≤ a ∧ a < x.opD + x.opN)) :
    (x.groupMem y k).readByte a = s.mem.readByte a := by
  obtain ⟨hwf, -⟩ := h.inv.mem
  obtain ⟨hlo, hhi⟩ := hat.dstAddr_in_output
  rw [readByte_groupMem ha hwf, if_neg (by omega), h.frame a hout]

/-- With more than one group left a turn writes one of them, and the operation runs on. -/
theorem State.RunsOn.engineTurn (h : s.RunsOn x (left + 2)) : s.RunsOn x.engineTurn (left + 1) := by
  obtain ⟨y, k, hp, hat, ha⟩ := h.exists_cursor
  have hprog := h.progress
  have hpos := outBytes_pos x.lastVar
  have hinv := inv_of_turnEffect h.inv (turnEffect_engineTurn x)
  rw [engineTurn_of_admitted hp ha] at hinv ⊢
  rcases advance_cases { x with mem := x.groupMem y k } x.lastVar y k with ⟨hr, -⟩ | ⟨-, e⟩
  · have hlast := hat.progress_add_eq_opN hr
    rw [← hlast, Nat.add_mul] at hprog
    omega
  · rw [e] at hinv ⊢
    exact {
      params := h.params
      started := h.started
      inv := hinv
      busy := rfl
      admitted := h.admitted
      progress := by
        rw [hat.progress_add_toNat]
        show _ + _ = x.opN
        rw [← hprog]
        ring
      frame := fun a hout => h.readByte_groupMem_frame hat ha hout }

/-- With one group left the turn completes the operation. -/
theorem State.RunsOn.engineTurn_last (h : s.RunsOn x 1) : s.CompletedTo x.engineTurn := by
  obtain ⟨y, k, hp, hat, ha⟩ := h.exists_cursor
  obtain ⟨hwf, -⟩ := h.inv.mem
  obtain ⟨hidle, -, -⟩ := h.inv.status
  obtain ⟨-, herr, -⟩ := hidle h.busy
  have hprog : x.progress.toNat + outBytes x.lastVar = x.opN := by
    rw [← h.progress, Nat.one_mul]
  have hinv := inv_of_turnEffect h.inv (turnEffect_engineTurn x)
  rw [engineTurn_of_admitted hp ha] at hinv ⊢
  rcases advance_cases { x with mem := x.groupMem y k } x.lastVar y k with ⟨-, e⟩ | ⟨-, e⟩
  · rw [e]
    exact {
      busy := rfl
      done := rfl
      err := herr
      progress := by rw [hat.progress_add_toNat, hprog, h.opN_eq]
      output := fun i hi => by
        rw [← h.opN_eq] at hi
        rw [← h.opD_eq, readByte_groupMem_output hat ha hwf h.inv.contents h.busy hi,
          if_pos (by omega), h.outByte_eq, h.started]
      frame := fun a hout => by
        rw [← h.opN_eq, ← h.opD_eq] at hout
        exact h.readByte_groupMem_frame hat ha hout }
  · rw [e] at hinv
    have hle := (hinv.run.runsAt rfl).progress_add_le
    have hpos := outBytes_pos x.lastVar
    rw [hat.progress_add_toNat] at hle
    replace hle : x.progress.toNat + outBytes x.lastVar + outBytes x.lastVar ≤ x.opN := hle
    omega

end RunsOn

/-! ### Runs of the machine -/

theorem core_run_succ {M : Host.Core} {x y : M.State} (h : M.step x = .next y) (n : Nat) :
    M.run (n + 1) x = M.run n y := by
  rw [Host.Core.run, h]

/-- A run goes on where its first steps have led. -/
theorem core_run_add {M : Host.Core} {y : M.State} (n : Nat) :
    ∀ {m : Nat} {x : M.State}, M.run m x = .next y → M.run (m + n) x = M.run n y
  | 0, x, h => by
    obtain rfl : x = y := Host.Outcome.next.inj h
    rw [Nat.zero_add]
  | m + 1, x, h => by
    cases hstep : M.step x with
    | next x' =>
      rw [core_run_succ hstep] at h
      rw [Nat.add_right_comm, core_run_succ hstep, core_run_add n h]
    | fault r =>
      rw [Host.Core.run, hstep] at h
      cases h
    | refused r =>
      rw [Host.Core.run, hstep] at h
      cases h

theorem run_succ_of_step {x y : State} (h : step x = .next y) (n : Nat) :
    Sys2Proof.core.run (n + 1) x = Sys2Proof.core.run n y :=
  core_run_succ (M := Sys2Proof.core) h n

/-- Where the host leaves the engine its turns, the operation is still running after any number of them
that leaves some group to write. -/
theorem State.RunsOn.run_turns {s : State} {rest : List Event} {left : Nat} :
    ∀ {m : Nat} {x : State}, s.RunsOn x (m + left + 1) → x.engineTurnsNext (m + left + 1) rest →
      ∃ x' : State, Sys2Proof.core.run m x = .next x' ∧ s.RunsOn x' (left + 1) ∧
        x'.engineTurnsNext (left + 1) rest
  | 0, x, h, hnext => by
    rw [Nat.zero_add] at h hnext
    exact ⟨x, rfl, h, hnext⟩
  | m + 1, x, h, hnext => by
    rw [Nat.add_right_comm m 1 left] at h hnext
    obtain ⟨l, hstep, hnext'⟩ := step_of_engineTurnsNext hnext
    rw [run_succ_of_step hstep]
    exact run_turns (h.engineTurn.withHost l x.engineTurn.readData) hnext'

/-- Where the host leaves the engine its turns, the operation ends with its last group, and the events
that follow are still to come. -/
theorem State.RunsOn.run_turns_to_end {s x : State} {rest : List Event} {m : Nat}
    (h : s.RunsOn x (m + 1)) (hnext : x.engineTurnsNext (m + 1) rest) :
    ∃ t : State, Sys2Proof.core.run (m + 1) x = .next t ∧ s.CompletedTo t ∧ t.pending = rest := by
  obtain ⟨x', hrun, hx', hnext'⟩ := h.run_turns (left := 0) hnext
  refine ⟨{ x'.engineTurn with pending := rest }, ?_,
    hx'.engineTurn_last.withHost rest x'.engineTurn.readData, rfl⟩
  rw [core_run_add 1 hrun, run_succ_of_step (step_eq_engineTurn hnext')]
  rfl

/-- The state in which a poll of `hse.wait` has read STATUS. -/
def State.polled (x : State) (l : List Event) : State :=
  { x with pending := l, readData := x.statusWord }

/-- A poll reads STATUS, and while it shows BUSY = 1 the engine's turn and the next poll come first. -/
theorem step_eq_polled {x : State} {rest : List Event} (hp : x.pending = .wait :: rest) :
    step x = .next (x.polled (if x.busy then .engine :: .wait :: rest else rest)) := by
  obtain ⟨-, -, -, turns⟩ := engineStepsOnlyInRun x
  obtain ⟨-, -, poll⟩ := turns rest
  exact poll hp

/-- A poll that reads BUSY = 1 gives the engine one turn and polls again: two steps. -/
theorem run_poll_busy {x : State} {rest : List Event} (hp : x.pending = .wait :: rest)
    (hb : x.busy = true) (n : Nat) :
    Sys2Proof.core.run (n + 2) x =
      Sys2Proof.core.run n
        { (x.polled (.engine :: .wait :: rest)).engineTurn with pending := .wait :: rest } := by
  have hpoll := step_eq_polled hp
  rw [if_pos hb] at hpoll
  rw [run_succ_of_step hpoll, run_succ_of_step (step_eq_engineTurn (.inr rfl))]

/-- A poll that reads BUSY = 0 ends the wait. -/
theorem run_poll_idle {x : State} {rest : List Event} (hp : x.pending = .wait :: rest)
    (hb : x.busy = false) : Sys2Proof.core.run 1 x = .next (x.polled rest) := by
  have hpoll := step_eq_polled hp
  rw [hb] at hpoll
  exact run_succ_of_step hpoll 0

/-- Under `hse.wait` the operation takes two steps for a group and one more for the last poll. -/
theorem State.RunsOn.run_wait_to_end {s : State} {rest : List Event} :
    ∀ {m : Nat} {x : State}, s.RunsOn x (m + 1) → x.pending = .wait :: rest →
      ∃ t : State, Sys2Proof.core.run (2 * (m + 1) + 1) x = .next t ∧ s.CompletedTo t ∧
        t.pending = rest ∧ t.readData = t.statusWord
  | m, x, h, hp => by
    have hx := h.withHost (.engine :: .wait :: rest) x.statusWord
    rw [show 2 * (m + 1) + 1 = 2 * m + 1 + 2 by ring, run_poll_busy hp h.busy]
    cases m with
    | zero =>
      have ht := hx.engineTurn_last.withHost (.wait :: rest)
        (x.polled (.engine :: .wait :: rest)).engineTurn.readData
      exact ⟨_, run_poll_idle rfl ht.busy, ht.withHost rest _, rfl, rfl⟩
    | succ m =>
      exact run_wait_to_end (hx.engineTurn.withHost (.wait :: rest)
        (x.polled (.engine :: .wait :: rest)).engineTurn.readData) rfl

/-- Settles O47: START begins an operation with one group for each of its steps, which the engine's turns
write one by one, with or without polls between them. -/
theorem acceptedOperationRunsToCompletion : Obligations.AcceptedOperationRunsToCompletion := by
  intro v s rest hb hm hacc hN hbuf
  have hexec : exec (startInstr v) s = .next (s.startOperation v) := by
    rw [exec_startInstr, unlessBusy_idle _ hb]
  have hpending : (s.startOperation v).pending = s.pending := by
    rw [startOperation_of_nonempty hacc hN]
    rfl
  have hrun := runsOn_startOperation hb hm hacc hN hbuf
  obtain ⟨m, hsteps⟩ := hrun.exists_left_eq
  rw [hsteps] at hrun ⊢
  refine ⟨fun hnext => ?turns, fun hwait => ?wait⟩
  case turns =>
    have hnext' : (s.startOperation v).engineTurnsNext (m + 1) rest := by
      rwa [State.engineTurnsNext, hpending]
    obtain ⟨t, hend, hdone, hrest⟩ := hrun.run_turns_to_end hnext'
    refine ⟨_, t, hexec, fun n hn => ?_, hend, hdone, hrest⟩
    obtain ⟨left, rfl⟩ := Nat.exists_eq_add_of_le (Nat.le_of_lt_succ hn)
    obtain ⟨x, hx, hrunning, -⟩ := hrun.run_turns hnext'
    exact ⟨x, hx, hrunning.busy⟩
  case wait =>
    obtain ⟨t, hend, hdone, hrest, hread⟩ := hrun.run_wait_to_end (hpending.trans hwait)
    exact ⟨_, t, hexec, hend, hdone, hrest, hread⟩

end Sys2Proof.Machine
end

/-!
The packed-word statements (`42_packed_word.md` R164, R168, R169): the slots of LaneSum and the bytes of
Avg32 and Avg64, with the bytes of a block spelled by their bit positions in the two rows.
-/
section
namespace Sys2Proof.Machine

open Sys2Proof

/-! ### The bytes of a block by their bit positions (R160) -/

theorem byteOf_even {N : Nat} (w : BitVec N) (j : Nat) :
    byteOf w (2 * j) = w.extractLsb' (16 * j) 8 := by
  rw [byteOf, show 8 * (2 * j) = 16 * j by ring]

theorem byteOf_odd {N : Nat} (w : BitVec N) (j : Nat) :
    byteOf w (2 * j + 1) = w.extractLsb' (16 * j + 8) 8 := by
  rw [byteOf, show 8 * (2 * j + 1) = 16 * j + 8 by ring]

theorem blockAverage_eq_roundedAverage {N : Nat} (T B : BitVec N) (j : Nat) :
    blockAverage T B j =
      roundedAverage (T.extractLsb' (16 * j) 8) (T.extractLsb' (16 * j + 8) 8)
        (B.extractLsb' (16 * j) 8) (B.extractLsb' (16 * j + 8) 8) := by
  rw [blockAverage, byteOf_even, byteOf_odd, byteOf_even, byteOf_odd]

/-! ### The slots of LaneSum (R164) -/

theorem two_le_blockSum {N : Nat} (T B : BitVec N) (j : Nat) : 2 ≤ blockSum T B j :=
  Nat.le_add_left ..

/-- Four bytes and the bias are at most 4 · 255 + 2. -/
theorem blockSum_le {N : Nat} (T B : BitVec N) (j : Nat) : blockSum T B j ≤ 1022 := by
  have bound (w : BitVec N) (i : Nat) : (byteOf w i).toNat ≤ 255 := Nat.le_of_lt_succ (byteOf w i).isLt
  calc blockSum T B j
    _ ≤ 255 + 255 + 255 + 255 + 2 := by unfold blockSum; gcongr <;> apply bound
    _ = 1022 := rfl

/-- A word whose slots are block sums has in each slot the exact sum of the four bytes and the bias, in
the range of R164. -/
theorem SlotsAre.exact_and_bounded {N : Nat} {w T B : BitVec N} (h : SlotsAre w (blockSum T B)) {j : Nat}
    (hj : 16 * j + 16 ≤ N) :
    (w.extractLsb' (16 * j) 16).toNat =
      (T.extractLsb' (16 * j) 8).toNat + (T.extractLsb' (16 * j + 8) 8).toNat +
      (B.extractLsb' (16 * j) 8).toNat + (B.extractLsb' (16 * j + 8) 8).toNat + 2 ∧
    2 ≤ (w.extractLsb' (16 * j) 16).toNat ∧ (w.extractLsb' (16 * j) 16).toNat ≤ 1022 := by
  have hsum : (w.extractLsb' (16 * j) 16).toNat = blockSum T B j := h j hj
  rw [hsum]
  refine ⟨?_, two_le_blockSum T B j, blockSum_le T B j⟩
  rw [blockSum, byteOf_even, byteOf_odd, byteOf_even, byteOf_odd]

/-- Settles O28: LaneSum's slots are the block sums at both widths, since no addition of slots carries. -/
theorem packedLaneSumsNeverCarry : Obligations.PackedLaneSumsNeverCarry :=
  ⟨fun T B _ hj =>
    (slotsAre_laneSum keepsLowBytes_M32 slotsAre_BIAS32 T B).exact_and_bounded (by omega),
   fun T B _ hj =>
    (slotsAre_laneSum keepsLowBytes_M64 slotsAre_BIAS64 T B).exact_and_bounded (by omega)⟩

/-! ### The averages (R168, R169) -/

/-- Settles O29: Fold_32 packs the two extracted averages. -/
theorem avg32BytesAreRoundedAverages : Obligations.Avg32BytesAreRoundedAverages := fun T B i hi =>
  (byteOf_avg32 T B hi).trans (blockAverage_eq_roundedAverage T B i)

/-- Settles O30: Fold_64 packs the four extracted averages. -/
theorem avg64BytesAreRoundedAverages : Obligations.Avg64BytesAreRoundedAverages := fun T B i hi =>
  (byteOf_avg64 T B hi).trans (blockAverage_eq_roundedAverage T B i)

end Sys2Proof.Machine
end

/-!
The vector statements (`43_vector_simd.md` R192 to R195): the lanes of VLaneSum and VAvg, and the byte
lanes of the shuffle and of Narrow.
-/
section
namespace Sys2Proof.Machine

open Sys2Proof

/-! ### The 16-bit lanes of VLaneSum and VAvg (R192, R193) -/

/-- Settles O31: a lane of VLaneSum is the block sum, since no lane-wise addition wraps, and a block sum
is between 2 and 1022. -/
theorem vectorLaneSumsNeverWrap : Obligations.VectorLaneSumsNeverWrap := by
  intro T B j hj
  have hsum : (lane16 (vLaneSum T B) j).toNat = blockSum T B j := slotsAre_vLaneSum T B j (by omega)
  rw [hsum]
  exact ⟨rfl, two_le_blockSum T B j, blockSum_le T B j⟩

/-- Where slot `j` is a byte in 16 bits, its high byte is 0. -/
theorem byteOf_succ_of_slot {N : Nat} {w : BitVec N} {x : Byte} {j : Nat}
    (h : slot w j = x.setWidth 16) : byteOf w (2 * j + 1) = 0#8 := by
  ext b hb
  rw [byteOf_getElem w _ hb, getLsbD_slot_high h (by omega) hb, BitVec.getElem_zero]

/-- Settles O32: each lane of VAvg is its block's average, widened from 8 to 16 bits. -/
theorem vectorAveragesStandInLowBytes : Obligations.VectorAveragesStandInLowBytes := by
  intro T B j hj
  have hslot : slot (vAvg T B) j = (blockAverage T B j).setWidth 16 := slot_vAvg T B hj
  exact ⟨byteOf_of_slot hslot, byteOf_succ_of_slot hslot⟩

/-! ### The byte lanes of the shuffle and of Narrow (R194, R195) -/

/-- Settles O33: the shuffle is made of the bytes of the pair, and a vector made of bytes has them as its
byte lanes. -/
theorem shuffleSelectsItsIndexedLanes : Obligations.ShuffleSelectsItsIndexedLanes := by
  intro a b idx i
  calc lane8 (shuffle a b idx) i
    _ = pairByte a b (idx i) := byteOf_ofLanes8 (fun i => pairByte a b (idx i)) i
    _ = if (idx i).val < 16 then lane8 a (idx i).val else lane8 b ((idx i).val - 16) := rfl

/-- Settles O34: NARROW_IDX names the even byte lanes of the pair in order. -/
theorem narrowPacksLowBytesLeftToRight : Obligations.NarrowPacksLowBytesLeftToRight :=
  fun A B _ hi => byteOf_narrow A B hi

end Sys2Proof.Machine
end

/-!
The output of an operation (`44_equivalence.md` R210 to R216): what it holds when the operation completes
and when BusError or reset ends it, that the input is never written, and that the variants agree.
-/
section
namespace Sys2Proof.Machine

open Sys2Proof

/-! ### The input is never written (R213) -/

/-- An engine turn writes no byte of the input: only a completed step writes memory, and it writes its
group (R213). -/
theorem TurnEffect.readByte_input {s t : State} (h : TurnEffect s t) (hinv : s.RunInv)
    (hm : s.mem.wf = true) {i : Nat} (hi : i < s.opW * s.opH) :
    t.mem.readByte (s.opS + i) = s.mem.readByte (s.opS + i) := by
  cases h with
  | idle => rfl
  | busError => rfl
  | last y k hp ha => exact readByte_groupMem_input (hinv.runsAt hp) ha hm hi
  | next y k hp ha => exact readByte_groupMem_input (hinv.runsAt hp) ha hm hi

/-- Settles O46: every address of the input range is SRC plus the index of an input byte. -/
theorem engineNeverWritesItsInput : Obligations.EngineNeverWritesItsInput := by
  intro s a hinv hm hlo hhi
  obtain ⟨i, rfl⟩ := Nat.exists_eq_add_of_le hlo
  exact (turnEffect_engineTurn s).readByte_input hinv hm (Nat.lt_of_add_lt_add_left hhi)

/-! ### The end of an operation -/

/-- Everything that a step which ends the running operation can do to a state. -/
inductive EndEffect (s : State) : State → Prop
  | reset (l : List Event) : EndEffect s { s with pending := l }.resetEngine
  | busError (l : List Event) (addr : Nat) : EndEffect s { s.busError addr with pending := l }
  | completed (l : List Event) (y k : Nat) (hp : s.phase = .run y k) (ha : s.stepAdmitted y k)
    (hr : s.nextRow s.lastVar y k = s.opH / 2) :
    EndEffect s
      { s with
        mem := s.groupMem y k
        progress := s.progress + BitVec.ofNat 32 (outBytes s.lastVar)
        phase := .idle
        done := true
        pending := l }

/-- A running operation ends by reset, by BusError or by its last engine step, and by nothing else. -/
theorem endEffect_of_step {s t : State} (h : step s = .next t) (hs : s.busy = true)
    (ht : t.busy = false) : EndEffect s t := by
  have changed : t.busy ≠ s.busy := by simp [hs, ht]
  cases stepEffect_of_step h with
  | reset l => exact .reset l
  | instr hf hi =>
    have not_idle : s.busy ≠ false := by simp [hs]
    cases hi with
    | start v hi hb => exact absurd hb not_idle
    | illegal hb => exact absurd hb not_idle
    | _ => exact absurd rfl changed
  | turn l hp hturn =>
    cases hturn with
    | idle => exact absurd rfl changed
    | busError y k addr => exact .busError l addr
    | last y k hrun ha hr => exact .completed l y k hrun ha hr
    | next => cases ht
  | _ => exact absurd rfl changed

/-! ### The output bytes by their positions (R62) -/

theorem outIndex_lt_opN {s : State} {x y : Nat} (hx : x < s.opW / 2) (hy : y < s.opH / 2) :
    y * (s.opW / 2) + x < s.opN := by
  have hrow : (y + 1) * (s.opW / 2) ≤ s.opH / 2 * (s.opW / 2) := Nat.mul_le_mul_right _ hy
  rw [State.opN, Nat.mul_comm (s.opW / 2)]
  linarith

/-- Out(x, y) is byte y·(W/2) + x of the output (R62). -/
theorem outByte_outIndex {s : State} (m : Memory) {x y : Nat} (hx : x < s.opW / 2) :
    s.outByte m (y * (s.opW / 2) + x) = s.outSample m x y := by
  rw [State.outByte, Nat.mul_comm, Nat.mul_add_mod, Nat.mod_eq_of_lt hx,
    Nat.mul_add_div (by omega), Nat.div_eq_of_lt hx, Nat.add_zero]

/-- Settles O44: only the last engine step leaves DONE = 1, and with it PROGRESS reaches N, so the part of
the output that holds the values of R210 is all of it. -/
theorem completedOperationMeetsTheRoundingLaw :
    Obligations.CompletedOperationMeetsTheRoundingLaw := by
  intro s t hinv hs h ht hdone
  cases endEffect_of_step h hs ht with
  | reset => cases hdone
  | busError => cases hdone
  | completed l y k hp ha hr =>
    have hat := hinv.run.runsAt hp
    have hend := hat.progress_add_eq_opN hr
    obtain ⟨hwf, -⟩ := hinv.mem
    refine ⟨hat.progress_add_toNat.trans hend, fun i j hi hj => ?_⟩
    have hlt := outIndex_lt_opN hi hj
    have hbyte := readByte_groupMem_output hat ha hwf hinv.contents hs hlt
    rw [hend, if_pos hlt, outByte_outIndex _ hi, ← Nat.add_assoc] at hbyte
    exact hbyte

/-- Settles O45: an end without DONE is reset or BusError; both leave memory as the invariant describes it,
and PROGRESS counts whole groups. -/
theorem partialOutputIsAPrefix : Obligations.PartialOutputIsAPrefix := by
  intro s t hinv hs h ht hdone
  obtain ⟨y, k, hp⟩ := busy_eq_true_iff.mp hs
  have hgroups : outBytes s.lastVar ∣ s.progress.toNat :=
    (hinv.run.runsAt hp).progress ▸ Nat.dvd_mul_left _ _
  obtain ⟨-, houtput⟩ := hinv.contents hs
  cases endEffect_of_step h hs ht with
  | reset l => exact ⟨nofun, hgroups, houtput⟩
  | busError l addr => exact ⟨fun _ => rfl, hgroups, houtput⟩
  | completed => cases hdone

/-! ### The variants agree (R211, R216) -/

/-- `s'` with memory `m'` has the image that `s` has with memory `m`: the width, the height and the bytes
of the input are the same, wherever it stands. -/
structure SameImage (s s' : State) (m m' : Memory) : Prop where
  width  : s'.opW = s.opW
  height : s'.opH = s.opH
  bytes  : ∀ i, i < s.opW * s.opH → m'.readByte (s'.opS + i) = m.readByte (s.opS + i)

section SameImage

variable {s s' : State} {m m' : Memory}

theorem SameImage.inSample_eq (h : SameImage s s' m m') {c r : Nat} (hc : c < s.opW)
    (hr : r < s.opH) : s'.inSample m' c r = s.inSample m c r := by
  have hrow : (r + 1) * s.opW ≤ s.opH * s.opW := Nat.mul_le_mul_right _ hr
  rw [State.inSample, State.inSample, h.width, Nat.add_assoc, Nat.add_assoc]
  exact h.bytes _ (by linarith)

theorem SameImage.opN_eq (h : SameImage s s' m m') : s'.opN = s.opN := by
  rw [State.opN, h.width, h.height, State.opN]

/-- The rounding law reads the image and nothing else: no variant, no address (R211). -/
theorem SameImage.outByte_eq (h : SameImage s s' m m') {i : Nat} (hi : i < s.opN) :
    s'.outByte m' i = s.outByte m i := by
  have hrow : 0 < s.opW / 2 := Nat.pos_of_mul_pos_right (Nat.zero_lt_of_lt hi)
  have hx : i % (s.opW / 2) < s.opW / 2 := Nat.mod_lt _ hrow
  have hy : i / (s.opW / 2) < s.opH / 2 := Nat.div_lt_of_lt_mul hi
  unfold State.outByte State.outSample
  rw [h.width, h.inSample_eq (by omega) (by omega), h.inSample_eq (by omega) (by omega),
    h.inSample_eq (by omega) (by omega), h.inSample_eq (by omega) (by omega)]

end SameImage

/-- Settles O48: both operations run to completion, where their outputs hold the rounding law's values of
one image. -/
theorem variantsAgreeWithScalar : Obligations.VariantsAgreeWithScalar := by
  intro v s s' rest rest' hb hnext hm hacc hbuf hb' hnext' hm' hacc' hbuf' hN hwidth hheight hbytes
  have himage : SameImage s s' s.mem s'.mem :=
    ⟨congrArg BitVec.toNat hwidth, congrArg BitVec.toNat hheight, hbytes⟩
  have hN' : 0 < s'.opN := himage.opN_eq ▸ hN
  have ⟨turns, _⟩ := acceptedOperationRunsToCompletion v s rest hb hm hacc hN hbuf
  have ⟨turns', _⟩ :=
    acceptedOperationRunsToCompletion .scalar s' rest' hb' hm' hacc' hN' hbuf'
  rw [himage.width, himage.height] at turns'
  obtain ⟨u, t, hstart, -, hrun, hend, -⟩ := turns hnext
  obtain ⟨u', t', hstart', -, hrun', hend', -⟩ := turns' hnext'
  refine ⟨u, t, u', t', hstart, hrun, hend.done, hstart', hrun', hend'.done, fun i hi => ?_⟩
  calc t.mem.readByte (s.opD + i) = s.outByte s.mem i := hend.output i hi
    _ = s'.outByte s'.mem i := (himage.outByte_eq hi).symm
    _ = t'.mem.readByte (s'.opD + i) := (hend'.output i (himage.opN_eq ▸ hi)).symm

end Sys2Proof.Machine
end

/-!
The exceptions (`60_exceptions.md`): the codes of the ERRCODE field (R221).
-/
section
namespace Sys2Proof.Machine

/-- Settles O23: the rows of R221 are the defining equations of the field, one for no error and one for
each error. -/
theorem errorCodeTable : Obligations.ErrorCodeTable :=
  ⟨rfl, rfl, rfl, rfl, rfl, rfl, rfl, rfl, rfl⟩

end Sys2Proof.Machine
end

/-!
The reset input (`70_reset_and_hazards.md` R250 to R252): what a host reads after it, what it leaves as it
is, and that the machine starts inside its invariant.
-/
section
namespace Sys2Proof.Machine

open Sys2Proof

theorem step_of_pending_reset {s : State} {rest : List Event} (h : s.pending = .reset :: rest) :
    step s = .next { s with pending := rest }.resetEngine := by
  simp [step, State.fetch, State.otherTurn, h]

/-- After the reset input every register but CAP reads as in the state after reset; CAP shows the
platform, which is not the engine's (R26). -/
theorem readReg_resetEngine {r : Reg} (s : State) (hcap : r ≠ .cap) :
    s.resetEngine.readReg r = State.reset.readReg r := by
  cases r with
  | cap => exact absurd rfl hcap
  | _ => rfl

/-- Settles O26: the step is `resetEngine`, under which registers read as in the state after reset; CAP,
the platform and memory are not among what it writes. -/
theorem resetInputClearsRegistersAndKeepsMemory :
    Obligations.ResetInputClearsRegistersAndKeepsMemory := by
  intro s rest hp
  exact ⟨_, step_of_pending_reset hp,
    fun r hid hcap => (readReg_resetEngine _ hcap).trans (readReg_reset hid hcap),
    readReg_resetEngine _ (by decide), rfl, rfl, rfl, rfl, fun _ => rfl⟩

/-- Settles O43: the machine starts idle, with no status bit set and nothing listed in memory. -/
theorem resetMeetsTheInvariant : Obligations.ResetMeetsTheInvariant :=
  inv_of_idle rfl (by simp [State.StatusInv, State.reset]) ⟨rfl, rfl⟩

end Sys2Proof.Machine
end

/-!
Every operation ends (`70_reset_and_hazards.md` R267, R268; `30_encoding.md` R100): each turn of the engine
ends the operation or leaves one group fewer to write, whatever the platform admits.
-/
section
namespace Sys2Proof.Machine

open Sys2Proof

/-! ### The turns that are left -/

/-- The step bound of R268: the groups of the whole output. -/
def State.stepBound (s : State) : Nat := s.opH / 2 * (s.opW / columns s.lastVar)

/-- If the operation is still running, at most `left` groups of its output are still to be written; if it
has ended, it ended by DONE or by an error. -/
structure State.EndsWithin (s : State) (left : Nat) : Prop where
  inv   : s.Inv
  bound : s.busy = true → s.opN ≤ s.progress.toNat + left * outBytes s.lastVar
  ended : s.busy = false → s.done = true ∨ s.err = true

/-- The bound does not depend on the events to come, nor on what the host has read. -/
theorem State.EndsWithin.withHost {s : State} {left : Nat} (h : s.EndsWithin left) (l : List Event)
    (w : Word) : ({ s with pending := l, readData := w } : State).EndsWithin left := by
  obtain ⟨⟨hstatus, hrun, hcontents, hmem⟩, hbound, hended⟩ := h
  exact ⟨⟨hstatus, hrun, hcontents, hmem⟩, hbound, hended⟩

/-- Wherever a running operation stands, no more groups are left than the whole output has. -/
theorem State.Inv.endsWithin {s : State} (h : s.Inv) (hb : s.busy = true) :
    s.EndsWithin s.stepBound where
  inv := h
  bound _ := by
    obtain ⟨y, k, hp⟩ := busy_eq_true_iff.mp hb
    exact (h.run.runsAt hp).opN_eq.le.trans (Nat.le_add_left _ _)
  ended hidle := absurd (hb.symm.trans hidle) (by simp)

/-- A running operation has a group to write: the one at its cursor. -/
theorem State.EndsWithin.busy_eq_false {s : State} (h : s.EndsWithin 0) : s.busy = false := by
  rw [← Bool.not_eq_true]
  intro hb
  obtain ⟨y, k, hp⟩ := busy_eq_true_iff.mp hb
  have hgroup := (h.inv.run.runsAt hp).progress_add_le
  have hpos := outBytes_pos s.lastVar
  have hbound := h.bound hb
  omega

/-- A turn of the engine ends the operation, or writes one of the groups that are left. -/
theorem State.EndsWithin.engineTurn {s : State} {left : Nat} (h : s.EndsWithin (left + 1)) :
    s.engineTurn.EndsWithin left := by
  have hturn := turnEffect_engineTurn s
  have hinv := inv_of_turnEffect h.inv hturn
  generalize s.engineTurn = t at hturn hinv
  cases hturn with
  | idle hp => exact ⟨hinv, fun hb => absurd ((busy_idle hp).symm.trans hb) (by simp), h.ended⟩
  | busError => exact ⟨hinv, nofun, fun _ => .inr rfl⟩
  | last => exact ⟨hinv, nofun, fun _ => .inl rfl⟩
  | next y k hp =>
    refine ⟨hinv, fun _ => ?_, nofun⟩
    rw [(h.inv.run.runsAt hp).progress_add_toNat, Nat.add_assoc, Nat.add_comm (outBytes _),
      ← Nat.succ_mul]
    exact h.bound (busy_run hp)

theorem State.EndsWithin.engineTurns :
    ∀ {left : Nat} {s : State}, s.EndsWithin left → (s.engineTurns left).EndsWithin 0
  | 0, _, h => h
  | _ + 1, s, h => State.EndsWithin.engineTurns (s := s.engineTurn) h.engineTurn

/-! ### Runs that end -/

/-- Where the next `n` turns are the engine's, `n` steps are these turns. -/
theorem run_engineTurns {rest : List Event} :
    ∀ {n : Nat} {s : State}, s.engineTurnsNext n rest →
      Sys2Proof.core.run n s = .next { s.engineTurns n with pending := rest }
  | 0, s, hnext => by
    have hp : s.pending = rest := by
      rcases hnext with ⟨hp, hrest⟩ | hp
      · exact hp.trans hrest.symm
      · exact hp
    rw [← hp]
    rfl
  | n + 1, s, hnext => by
    obtain ⟨l, hstep, hnext'⟩ := step_of_engineTurnsNext hnext
    rw [run_succ_of_step hstep, run_engineTurns hnext', engineTurns_pending]
    rfl

/-- Under `hse.wait` a group takes two steps, a poll and a turn, and the poll that reads BUSY = 0 is one
more. -/
theorem State.EndsWithin.run_wait {rest : List Event} :
    ∀ {left : Nat} {s : State}, s.EndsWithin left → s.pending = .wait :: rest →
      ∃ (n : Nat) (t : State), n ≤ 2 * left + 1 ∧ Sys2Proof.core.run n s = .next t ∧
        t.busy = false ∧ (t.done = true ∨ t.err = true) ∧ t.pending = rest ∧
        t.readData = t.statusWord
  | left, s, h, hp => by
    cases hb : s.busy with
    | false => exact ⟨1, _, by omega, run_poll_idle hp hb, hb, h.ended hb, rfl, rfl⟩
    | true =>
      cases left with
      | zero => exact absurd (h.busy_eq_false.symm.trans hb) (by simp)
      | succ left =>
        have hpolled := h.withHost (.engine :: .wait :: rest) s.statusWord
        have hturn := hpolled.engineTurn.withHost (.wait :: rest)
          (s.polled (.engine :: .wait :: rest)).engineTurn.readData
        obtain ⟨n, t, hn, hrun, hend⟩ := run_wait hturn rfl
        exact ⟨n + 2, t, by omega, (run_poll_busy hp hb n).trans hrun, hend⟩

/-- Settles O49: as many turns as the output has groups leave none to write, alone or each after a poll
of `hse.wait`. -/
theorem everyOperationEndsWithinItsStepBound :
    Obligations.EveryOperationEndsWithinItsStepBound := by
  intro s rest hinv hb
  have hwithin := hinv.endsWithin hb
  refine ⟨fun hnext => ⟨s.stepBound, _, le_rfl, run_engineTurns hnext, ?_⟩, hwithin.run_wait⟩
  have hend := hwithin.engineTurns
  exact ⟨hend.busy_eq_false, hend.ended hend.busy_eq_false⟩

end Sys2Proof.Machine
end

/-!
What a host load sees while an operation runs (`70_reset_and_hazards.md` R259, R251; `44_equivalence.md`
R215): the two values of an output byte, and that the later one is the byte's value at the operation's end.
-/
section
namespace Sys2Proof.Machine

open Sys2Proof

/-! ### The host's loads -/

theorem step_of_pending_load {s : State} {addr : BitVec 32} {size : Nat} {rest : List Event}
    (hp : s.pending = .load addr size :: rest)
    (hw : touchesWindow s.platform addr.toNat size = false) :
    step s = { s with pending := rest }.hostLoad addr size := by
  simp [step, State.fetch, State.otherTurn, hp, hw]

/-- A load past the address space faults (R60; entry 22). -/
theorem hostLoad_fault {s : State} {addr : BitVec 32} {size : Nat}
    (h : Config.addrSpace < addr.toNat + size) :
    s.hostLoad addr size = .fault (.noSuchAddress addr size) :=
  if_pos h

/-- Settles O59: beside the window the step is the host's load, which faults past the address space; else
each of its bytes is a `loadByte`, and it writes nothing of the engine. -/
theorem hostLoadWhileBusySeesOldOrFinalByte :
    Obligations.HostLoadWhileBusySeesOldOrFinalByte := by
  intro s addr size rest hp hw
  rw [step_of_pending_load hp hw]
  refine ⟨hostLoad_fault, fun hspace => ?_⟩
  refine ⟨_, hostLoad_eq_next_iff.mpr ⟨hspace, rfl⟩, by simp, fun i b hi => ?_, rfl⟩
  obtain ⟨-, rfl⟩ : i < size ∧ ({ s with pending := rest } : State).loadByte (s.draws + i)
      (addr.toNat + i) = b := by simpa [List.getElem?_eq_some_iff] using hi
  rcases loadByte_cases { s with pending := rest } (s.draws + i) (addr.toNat + i) with
    ⟨hmemory, e⟩ | ⟨hb, hout, e⟩
  · exact ⟨fun hb hout => absurd ⟨hb, hout⟩ hmemory, fun _ => e⟩
  · refine ⟨fun _ _ => e, ?_⟩
    rintro (hidle | hbeside)
    · exact absurd (hb.symm.trans hidle) (by simp)
    · exact absurd (hout.symm.trans hbeside) (by simp)

/-! ### What the course of an operation depends on -/

/-- The part of the state that the course of an operation depends on: the platform, the parameters, the
cursor with PROGRESS, and memory as it stood at START. -/
def State.runView (s : State) : State :=
  { State.reset with
    platform := s.platform, phase := s.phase, lastVar := s.lastVar, src := s.src, dst := s.dst,
    width := s.width, height := s.height, dstLen := s.dstLen, progress := s.progress,
    memAtStart := s.memAtStart }

/-- What is computed from that part alone is the same where the part is. -/
theorem congr_runView {α : Type} {s t : State} (f : State → α) (hf : ∀ x : State, f x.runView = f x)
    (h : t.runView = s.runView) : f t = f s := by
  rw [← hf t, h, hf s]

theorem advance_runView (s : State) (v : Variant) (y k : Nat) :
    (s.advance v y k).runView = (s.runView.advance v y k).runView := by
  unfold State.advance
  rw [apply_ite State.runView, apply_ite State.runView]
  rfl

/-- What a turn does to that part it does from that part alone: which accesses are admitted does not
depend on the bytes of memory. -/
theorem engineTurn_runView (s : State) : s.engineTurn.runView = s.runView.engineTurn.runView := by
  rcases engineTurn_cases s with ⟨hp, e⟩ | ⟨y, k, hp, e⟩
  · rw [e, engineTurn_of_not_busy (busy_idle (s := s.runView) hp)]
    rfl
  rcases engineStep_cases s y k with ⟨a, hno, e'⟩ | ⟨ha, e'⟩
  · rw [e, e', engineTurn_of_refused (s := s.runView) hp hno]
    rfl
  · rw [e, e', engineTurn_of_admitted (s := s.runView) hp ha, advance_runView,
      advance_runView { s.runView with mem := _ }]
    rfl

theorem engineTurns_runView {s t : State} (h : t.runView = s.runView) (n : Nat) :
    (t.engineTurns n).runView = (s.engineTurns n).runView := by
  induction n generalizing s t with
  | zero => exact h
  | succ n ih => exact ih (by rw [engineTurn_runView t, h, ← engineTurn_runView s])

/-! ### The output along the engine's turns -/

/-- The output is written up to PROGRESS and untouched after it, whether the operation runs or has
ended (R215). -/
def State.OutputInv (s : State) : Prop :=
  ∀ i, i < s.opN → s.mem.readByte (s.opD + i) =
    if i < s.progress.toNat then s.outByte s.memAtStart i else s.memAtStart.readByte (s.opD + i)

theorem State.Inv.outputInv {s : State} (h : s.Inv) (hb : s.busy = true) : s.OutputInv :=
  (h.contents hb).2

theorem TurnEffect.outputInv {s t : State} (h : TurnEffect s t) (hs : s.Inv) (ho : s.OutputInv) :
    t.OutputInv := by
  obtain ⟨hwf, -⟩ := hs.mem
  have written {y k : Nat} (hp : s.phase = .run y k) (ha : s.stepAdmitted y k) {i : Nat}
      (hi : i < s.opN) : (s.groupMem y k).readByte (s.opD + i) =
        if i < (s.progress + BitVec.ofNat 32 (outBytes s.lastVar)).toNat then s.outByte s.memAtStart i
        else s.memAtStart.readByte (s.opD + i) := by
    have hat := hs.run.runsAt hp
    rw [hat.progress_add_toNat]
    exact readByte_groupMem_output hat ha hwf hs.contents (busy_run hp) hi
  cases h with
  | idle => exact ho
  | busError => exact ho
  | last y k hp ha => exact fun i hi => written hp ha hi
  | next y k hp ha => exact fun i hi => written hp ha hi

theorem engineTurns_outputInv :
    ∀ (n : Nat) {s : State}, s.Inv → s.OutputInv → (s.engineTurns n).OutputInv
  | 0, _, _, ho => ho
  | n + 1, s, hs, ho =>
    have hturn := turnEffect_engineTurn s
    engineTurns_outputInv n (inv_of_turnEffect hs hturn) (hturn.outputInv hs ho)

theorem TurnEffect.inOutput_eq {s t : State} (h : TurnEffect s t) (a : Nat) :
    t.inOutput a = s.inOutput a := by
  cases h <;> rfl

theorem engineTurns_inOutput (a : Nat) :
    ∀ (n : Nat) (s : State), (s.engineTurns n).inOutput a = s.inOutput a
  | 0, _ => rfl
  | n + 1, s =>
    (engineTurns_inOutput a n s.engineTurn).trans ((turnEffect_engineTurn s).inOutput_eq a)

/-- The output bytes are a function of that part of the state. -/
theorem readByte_eq_of_runView_eq {s t : State} {a : Nat} (h : t.runView = s.runView)
    (hs : s.OutputInv) (ht : t.OutputInv) (ha : s.inOutput a = true) :
    t.mem.readByte a = s.mem.readByte a := by
  have hD : t.opD = s.opD := congr_runView State.opD (fun _ => rfl) h
  have hN : t.opN = s.opN := congr_runView State.opN (fun _ => rfl) h
  have hprog : t.progress = s.progress := congr_runView State.progress (fun _ => rfl) h
  have hstart : t.memAtStart = s.memAtStart := congr_runView State.memAtStart (fun _ => rfl) h
  have hbyte : t.outByte = s.outByte := congr_runView State.outByte (fun _ => rfl) h
  simp only [State.inOutput, Bool.and_eq_true, decide_eq_true_eq] at ha
  obtain ⟨hlo, hhi⟩ := ha
  obtain ⟨i, rfl⟩ := Nat.exists_eq_add_of_le hlo
  have hi : i < s.opN := Nat.lt_of_add_lt_add_left hhi
  have htbyte := ht i (hN ▸ hi)
  rw [hD, hprog, hstart, hbyte] at htbyte
  exact htbyte.trans (hs i hi).symm

/-! ### The final byte along a step -/

/-- While BUSY = 1 an instruction changes nothing that the course of the operation depends on (R123,
R135). -/
theorem InstrEffect.runView_eq {i : Instr} {s t : State} (h : InstrEffect i s t)
    (hb : s.busy = true) : t.runView = s.runView ∧ t.pending = s.pending := by
  have not_idle : s.busy ≠ false := by simp [hb]
  cases h with
  | nothing | respond | writeCtrl | ignored => exact ⟨rfl, rfl⟩
  | configure _ _ _ _ _ hb' => exact absurd hb' not_idle
  | start v hi hb' => exact absurd hb' not_idle
  | clear hi hb' => exact absurd hb' not_idle
  | illegal hb' => exact absurd hb' not_idle

/-- A register access leaves the engine the turns it has before the reset input. -/
theorem turnsBeforeReset_of_fetch {s u : State} {r : Request} (h : s.fetch = some (r, u)) :
    turnsBeforeReset u.pending = turnsBeforeReset s.pending := by
  obtain ⟨e, rest, hp, rfl, rfl | ⟨a, n, rfl, -⟩ | ⟨a, bs, rfl, -⟩⟩ := fetch_eq_some_iff.mp h <;>
    rw [hp] <;> rfl

/-- Everything that a step can do to a running operation: the reset input ends it, the engine has its
turn, or a host event changes neither its course nor the turns it has before reset. -/
theorem running_step_cases {s t : State} (h : step s = .next t) (hb : s.busy = true) :
    (∃ rest, s.pending = .reset :: rest ∧ t = { s with pending := rest }.resetEngine) ∨
    (∃ rest, s.engineTurnsNext 1 rest ∧ t = { s.engineTurn with pending := rest }) ∨
    (t.runView = s.runView ∧ turnsBeforeReset t.pending = turnsBeforeReset s.pending) := by
  have turn {rest : List Event} (hnext : s.engineTurnsNext 1 rest) :
      t = { s.engineTurn with pending := rest } :=
    Host.Outcome.next.inj (h.symm.trans (step_eq_engineTurn hnext))
  rcases step_cases s with ⟨r, u, hf, e⟩ | ⟨a, n, rest, hp, -, e⟩ | ⟨a, bs, rest, hp, -, e⟩ |
    ⟨rest, hp, e⟩ | ⟨rest, hp, -⟩ | ⟨rest, hp, e⟩ | ⟨hp, -⟩
  · obtain ⟨-, rest, -, rfl, -⟩ := fetch_eq_some_iff.mp hf
    obtain ⟨hview, hpending⟩ := (instrEffect_of_exec (e.symm.trans h)).runView_eq hb
    exact .inr (.inr ⟨hview, by rw [hpending, turnsBeforeReset_of_fetch hf]⟩)
  · obtain ⟨-, rfl⟩ := hostLoad_eq_next_iff.mp (e.symm.trans h)
    exact .inr (.inr ⟨rfl, by rw [hp]; rfl⟩)
  · obtain ⟨-, -, rfl⟩ := hostStore_eq_next_iff.mp (e.symm.trans h)
    exact .inr (.inr ⟨rfl, by rw [hp]; rfl⟩)
  · exact .inl ⟨rest, hp, Host.Outcome.next.inj (h.symm.trans e)⟩
  · exact .inr (.inl ⟨rest, .inr hp, turn (.inr hp)⟩)
  · obtain rfl := Host.Outcome.next.inj (e.symm.trans h)
    rw [waitTurn_eq, hp, show ({ s with pending := rest } : State).busy = true from hb]
    exact .inr (.inr ⟨rfl, rfl⟩)
  · exact .inr (.inl ⟨[], .inl ⟨hp, rfl⟩, turn (.inl ⟨hp, rfl⟩)⟩)

theorem finalByte_eq (s : State) (a : Nat) :
    s.finalByte a =
      (s.engineTurns ((turnsBeforeReset s.pending).getD s.stepBound)).mem.readByte a := rfl

/-- Once the operation has ended the final byte is memory's. -/
theorem finalByte_of_not_busy {s : State} (h : s.busy = false) (a : Nat) :
    s.finalByte a = s.mem.readByte a := by
  rw [State.finalByte, engineTurns_idle (busy_eq_false_iff.mp h)]

theorem engineTurns_succ (n : Nat) (s : State) :
    s.engineTurns (n + 1) = (s.engineTurns n).engineTurn := by
  induction n generalizing s with
  | zero => rfl
  | succ n ih => exact ih s.engineTurn

/-- After the turns of the step bound one turn more is of no use (R268). -/
theorem engineTurn_engineTurns_stepBound {s : State} (hs : s.Inv) (hb : s.busy = true) :
    s.engineTurn.engineTurns s.stepBound = s.engineTurns s.stepBound := by
  have hend := (hs.endsWithin hb).engineTurns.busy_eq_false
  calc s.engineTurn.engineTurns s.stepBound = s.engineTurns (s.stepBound + 1) := rfl
    _ = (s.engineTurns s.stepBound).engineTurn := engineTurns_succ _ s
    _ = s.engineTurns s.stepBound := engineTurn_of_not_busy hend

theorem TurnEffect.stepBound_eq {s t : State} (h : TurnEffect s t) : t.stepBound = s.stepBound := by
  cases h <;> rfl

theorem turnsBeforeReset_of_engineTurnsNext {s : State} {rest : List Event}
    (h : s.engineTurnsNext 1 rest) :
    turnsBeforeReset s.pending = (turnsBeforeReset rest).map (· + 1) := by
  rcases h with ⟨hp, rfl⟩ | hp <;> rw [hp] <;> rfl

/-- The engine's turn is the first of the turns that the final byte waits for. -/
theorem finalByte_engineTurn {s : State} {rest : List Event} (hs : s.Inv) (hb : s.busy = true)
    (hnext : s.engineTurnsNext 1 rest) (a : Nat) :
    ({ s.engineTurn with pending := rest } : State).finalByte a = s.finalByte a := by
  have hturns := turnsBeforeReset_of_engineTurnsNext hnext
  have hbound : ({ s.engineTurn with pending := rest } : State).stepBound = s.stepBound :=
    (turnEffect_engineTurn s).stepBound_eq
  simp only [finalByte_eq, engineTurns_pending, hturns, hbound]
  cases turnsBeforeReset rest with
  | none => exact congrArg (fun x : State => x.mem.readByte a) (engineTurn_engineTurns_stepBound hs hb)
  | some n => rfl

/-- No step of a running operation changes what an output byte will hold at the end. -/
theorem finalByte_of_step {s t : State} {a : Nat} (h : step s = .next t) (hs : s.Inv)
    (hb : s.busy = true) (ha : s.inOutput a = true) : t.finalByte a = s.finalByte a := by
  have ht := stepKeepsTheInvariant s t hs h
  rcases running_step_cases h hb with ⟨rest, hp, rfl⟩ | ⟨rest, hnext, rfl⟩ | ⟨hview, hturns⟩
  · rw [finalByte_of_not_busy rfl, finalByte_eq, hp]
    rfl
  · exact finalByte_engineTurn hs hb hnext a
  · have hbt : t.busy = true := (congr_runView State.busy (fun _ => rfl) hview).trans hb
    have hbound : t.stepBound = s.stepBound := congr_runView State.stepBound (fun _ => rfl) hview
    rw [finalByte_eq, finalByte_eq, hturns, hbound]
    exact readByte_eq_of_runView_eq (engineTurns_runView hview _)
      (engineTurns_outputInv _ hs (hs.outputInv hb)) (engineTurns_outputInv _ ht (ht.outputInv hbt))
      ((engineTurns_inOutput a _ s).trans ha)

/-- While the operation runs on, its output range stays where it is (R39). -/
theorem inOutput_of_step {s t : State} (h : step s = .next t) (hs : s.busy = true)
    (ht : t.busy = true) (a : Nat) : t.inOutput a = s.inOutput a := by
  have hreset (rest : List Event) (hp : s.pending = .reset :: rest) : False := by
    obtain rfl := Host.Outcome.next.inj ((step_of_pending_reset hp).symm.trans h)
    cases ht
  obtain ⟨-, hdst, hwidth, hheight, -⟩ := parametersAreStableWhileBusy s t hs hreset h
  have hD : t.opD = s.opD := congrArg BitVec.toNat hdst
  have hN : t.opN = s.opN := by simp only [State.opN, State.opW, State.opH, hwidth, hheight]
  rw [State.inOutput, hD, hN, State.inOutput]

/-- A run of one step or more that leads on begins with a step that does. -/
theorem exists_step_of_core_run_succ {M : Host.Core} {n : Nat} {x y : M.State}
    (h : M.run (n + 1) x = .next y) : ∃ z, M.step x = .next z ∧ M.run n z = .next y := by
  cases hstep : M.step x with
  | next z => exact ⟨z, rfl, (core_run_succ hstep n).symm.trans h⟩
  | fault r =>
    rw [Host.Core.run, hstep] at h
    cases h
  | refused r =>
    rw [Host.Core.run, hstep] at h
    cases h

/-- Along a run that ends with the operation, by whatever schedule, the final byte stays what it was. -/
theorem finalByte_of_run {a : Nat} {t : State} (ht : t.busy = false) :
    ∀ {n : Nat} {s : State}, s.Inv → (s.busy = true → s.inOutput a = true) →
      (∀ m, m < n → ∃ x : State, Sys2Proof.core.run m s = .next x ∧ x.busy = true) →
      Sys2Proof.core.run n s = .next t → s.finalByte a = t.mem.readByte a
  | 0, s, _, _, _, hrun => by
    obtain rfl : s = t := Host.Outcome.next.inj hrun
    exact finalByte_of_not_busy ht a
  | n + 1, s, hs, ha, hbusy, hrun => by
    obtain ⟨x, hx, hb⟩ := hbusy 0 n.succ_pos
    obtain rfl : s = x := Host.Outcome.next.inj hx
    obtain ⟨u, hstep, hrest⟩ := exists_step_of_core_run_succ (M := Sys2Proof.core) hrun
    rw [← finalByte_of_step hstep hs hb (ha hb)]
    refine finalByte_of_run ht (stepKeepsTheInvariant s u hs hstep)
      (fun hbu => (inOutput_of_step hstep hb hbu a).trans (ha hb)) (fun m hm => ?_) hrest
    rw [← run_succ_of_step hstep]
    exact hbusy (m + 1) (Nat.succ_lt_succ hm)

/-- Settles O60: no step of the running operation changes the final byte, and at the end it is
memory's. -/
theorem finalByteIsTheOneTheOperationEndsWith :
    Obligations.FinalByteIsTheOneTheOperationEndsWith := by
  intro s t n a hs ha hbusy _ hrun ht
  exact finalByte_of_run ht hs (fun _ => ha) hbusy hrun

end Sys2Proof.Machine
end
